-- ==== Sys2Proof/Word.lean ====
section
/-! DEFINITION. The widths of the machine's values (00_scope.md R8, R10, R12). Every register value is an
unsigned number of its register's width, so a value is a bit vector of that width. -/

namespace Sys2Proof

/-- An 8-bit value: a general register, a timer, a byte of memory, the immediate `NN` (R8, R12). -/
abbrev Byte := BitVec 8

/-- A 16-bit value: `I`, `PC`, a return address, an instruction word (R8, R70). -/
abbrev Word := BitVec 16

/-- A 4-bit value: a nibble of an instruction word, or the number of a key (R14, R29). -/
abbrev Nibble := BitVec 4

/-- A register index, a 4-bit field: it always names one of `V0`..`VF` (R22). -/
abbrev Reg := BitVec 4

/-- The 12-bit address field `NNN` (R72). -/
abbrev Addr12 := BitVec 12

end Sys2Proof
end

