-- ==== Sys2Proof/Config.lean ====
section
/-! DEFINITION. The fixed parameters of the hardware (00_scope.md R8), the defaults of the parameters the host
gives at creation (R9), and the one free value, RND's draw. -/

namespace Sys2Proof

/-- `MEM_SIZE`: addresses 0x000..0xFFF (R8, R50). -/
abbrev Config.memSize : Nat := 4096

/-- `RESERVED_END`: bytes 0x000..0x1FF are reserved (R8, R52). -/
abbrev Config.reservedEnd : Nat := 0x200

/-- `LOAD_ADDR`: where the program image is loaded and `PC` starts (R8, R270). -/
abbrev Config.loadAddr : Nat := 0x200

/-- `FONT` is 16 glyphs of `FONT_GLYPH` = 5 bytes (R8, R9). -/
abbrev Config.fontSize : Nat := 80

/-- The smallest legal `STACK_CAP` (R9: "any integer ≥ 16"). -/
abbrev Config.minStackCap : Nat := 16

/-- The spec's default of `STACK_CAP` (R9). -/
abbrev Config.defaultStackCap : Nat := 16

/-- `draw_byte()`, the free 8-bit draw of RND (R152, decision D30): "any value 0..255, drawn afresh at every
execution". The `k`-th draw of a run is `drawByte k`. It has no body, so nothing can be proved of its value;
log entry 5. -/
opaque Config.drawByte : Nat → Byte

end Sys2Proof
end

