-- ==== Sys2Proof/Syntax.lean ====
section
/-! DEFINITION. The 34 instructions, one constructor per row of spec/opcode_table.json (30_encoding.md R75, R82),
and the decode result. Operands are the fields of R72 at their own widths, so no term names a register outside
`V0`..`VF` (R22). The ignored nibble of the formats `XY` (SE/SNE Vx, Vy, R74) and of SHR and SHL (the `Y` that is
"decoded but not read", R149, R151) is an operand too: the decoder extracts every field (R71), and with it the
words and the instructions correspond one to one. No meaning reads it. -/

namespace Sys2Proof

/-- An instruction, with its operands in the order the opcode table's pattern shows them. -/
inductive Instr where
  | cls                                -- 00E0  CLS
  | ret                                -- 00EE  RET
  | jp (nnn : Addr12)                  -- 1NNN  JP NNN
  | call (nnn : Addr12)                -- 2NNN  CALL NNN
  | seVxNN (x : Reg) (nn : Byte)       -- 3XNN  SE Vx, NN
  | sneVxNN (x : Reg) (nn : Byte)      -- 4XNN  SNE Vx, NN
  | seVxVy (x y : Reg) (n : Nibble)    -- 5XYN  SE Vx, Vy   (N ignored)
  | ldVxNN (x : Reg) (nn : Byte)       -- 6XNN  LD Vx, NN
  | addVxNN (x : Reg) (nn : Byte)      -- 7XNN  ADD Vx, NN
  | ldVxVy (x y : Reg)                 -- 8XY0  LD Vx, Vy
  | orVxVy (x y : Reg)                 -- 8XY1  OR Vx, Vy
  | andVxVy (x y : Reg)                -- 8XY2  AND Vx, Vy
  | xorVxVy (x y : Reg)                -- 8XY3  XOR Vx, Vy
  | addVxVy (x y : Reg)                -- 8XY4  ADD Vx, Vy
  | subVxVy (x y : Reg)                -- 8XY5  SUB Vx, Vy
  | shrVx (x y : Reg)                  -- 8XY6  SHR Vx      (Y ignored)
  | subnVxVy (x y : Reg)               -- 8XY7  SUBN Vx, Vy
  | shlVx (x y : Reg)                  -- 8XYE  SHL Vx      (Y ignored)
  | sneVxVy (x y : Reg) (n : Nibble)   -- 9XYN  SNE Vx, Vy  (N ignored)
  | ldI (nnn : Addr12)                 -- ANNN  LD I, NNN
  | jpV0 (nnn : Addr12)                -- BNNN  JP V0, NNN
  | rndVxNN (x : Reg) (nn : Byte)      -- CXNN  RND Vx, NN
  | drw (x y : Reg) (n : Nibble)       -- DXYN  DRW Vx, Vy, N
  | skp (x : Reg)                      -- EX9E  SKP Vx
  | sknp (x : Reg)                     -- EXA1  SKNP Vx
  | ldVxDT (x : Reg)                   -- FX07  LD Vx, DT
  | ldVxK (x : Reg)                    -- FX0A  LD Vx, K
  | ldDTVx (x : Reg)                   -- FX15  LD DT, Vx
  | ldSTVx (x : Reg)                   -- FX18  LD ST, Vx
  | addIVx (x : Reg)                   -- FX1E  ADD I, Vx
  | ldFVx (x : Reg)                    -- FX29  LD F, Vx
  | ldBVx (x : Reg)                    -- FX33  LD B, Vx
  | ldMemVx (x : Reg)                  -- FX55  LD [I], Vx
  | ldVxMem (x : Reg)                  -- FX65  LD Vx, [I]
  deriving DecidableEq, Repr

/-- The decode result: an instruction, or the word that is none (R82's `Unknown(word)`). -/
inductive Decoded where
  | instr (i : Instr)
  | unknown (word : Word)
  deriving DecidableEq, Repr

end Sys2Proof
end

