-- ==== Sys2Proof/WellFormed.lean ====
section
/-! DEFINITION. The checks on what the machine is given. An instruction needs none: its operands have their
fields' own widths (R22). Checked are a decode result (its unknown word must be an illegal one, R80), the
parameters of a creation (R9) and the length of a program image (R271). -/

namespace Sys2Proof

/-- The illegal words, listed as R80 lists them and independently of the decoder: class 0 except 0x00E0 and
0x00EE; class 8 with N in {8..D, F}; class E with NN not in {9E, A1}; class F with NN not one of its nine. -/
def illegalWord (w : Word) : Bool :=
  let c := w.toNat / 4096
  let nn := w.toNat % 256
  let n := w.toNat % 16
  (c == 0 && !(w.toNat == 0x00E0 || w.toNat == 0x00EE)) ||
  (c == 8 && [0x8, 0x9, 0xA, 0xB, 0xC, 0xD, 0xF].contains n) ||
  (c == 0xE && !([0x9E, 0xA1].contains nn)) ||
  (c == 0xF && !([0x07, 0x0A, 0x15, 0x18, 0x1E, 0x29, 0x33, 0x55, 0x65].contains nn))

/-- A decode result is well-formed when the word it calls unknown is one of R80's illegal words. -/
def Decoded.wellFormed : Decoded → Bool
  | .instr _ => true
  | .unknown w => illegalWord w

/-- What the host gives at creation beside the image (R9, R34). -/
structure Params where
  stackCap : Nat
  font : List Byte
  deriving DecidableEq, Repr

/-- The legal values of R9: `STACK_CAP` at least 16, `FONT` 80 bytes. -/
def Params.wellFormed (p : Params) : Bool :=
  decide (Config.minStackCap ≤ p.stackCap) && decide (p.font.length = Config.fontSize)

/-- An image fits when it is at most 4096 − 0x200 = 3584 bytes long (R271). -/
def imageFits (image : List Byte) : Bool :=
  decide (image.length ≤ Config.memSize - Config.loadAddr)

end Sys2Proof
end

