-- ==== Sys2Proof/Decode.lean ====
section
/-! DEFINITION. The decoder and the encoder (30_encoding.md R70 to R82). The opcode map is data: one row per
instruction, a row's nibbles written most significant first as R72 pictures the word, so that a correction of the
map is one row (91_not_in_source.md N1). -/

namespace Sys2Proof

/-- The word of two bytes, high byte first (R57, R70). -/
def wordOfBytes (hi lo : Byte) : Word := hi ++ lo

/-- Bits 15:8 of a word, the byte at the lower address (R57). -/
def highByte (w : Word) : Byte := w.extractLsb' 8 8

/-- Bits 7:0 of a word (R57). -/
def lowByte (w : Word) : Byte := w.extractLsb' 0 8

/-- The fields of R72. -/
structure Fields where
  c : Nibble
  nnn : Addr12
  x : Reg
  y : Reg
  n : Nibble
  nn : Byte
  deriving DecidableEq, Repr

/-- Every field of a word, whatever its class (R71, R72; conflict C1). -/
def fieldsOf (w : Word) : Fields where
  c := w.extractLsb' 12 4
  nnn := w.extractLsb' 0 12
  x := w.extractLsb' 8 4
  y := w.extractLsb' 4 4
  n := w.extractLsb' 0 4
  nn := w.extractLsb' 0 8

/-- A row of the opcode map: the class nibble, the other three nibbles where the row fixes them, and the
instruction built from the fields. -/
structure OpcodeRow where
  mnemonic : String
  c : Nibble
  x : Option Nibble
  y : Option Nibble
  n : Option Nibble
  build : Fields → Instr

/-- A nibble agrees with a row's pattern for it. -/
def nibbleMatches (pattern : Option Nibble) (v : Nibble) : Bool :=
  match pattern with
  | none => true
  | some p => p == v

/-- The fields select the row: class and discriminators agree (R74). -/
def OpcodeRow.selects (r : OpcodeRow) (f : Fields) : Bool :=
  r.c == f.c && nibbleMatches r.x f.x && nibbleMatches r.y f.y && nibbleMatches r.n f.n

/-- Classes 0 to 7 (R75, R76). Class 0 is exact (decision D20); class 5 takes no discriminator (R74). -/
def opcodeRowsLow : List OpcodeRow :=
  [⟨"CLS", 0x0, some 0x0, some 0xE, some 0x0, fun _ => .cls⟩,
   ⟨"RET", 0x0, some 0x0, some 0xE, some 0xE, fun _ => .ret⟩,
   ⟨"JP_NNN", 0x1, none, none, none, fun f => .jp f.nnn⟩,
   ⟨"CALL_NNN", 0x2, none, none, none, fun f => .call f.nnn⟩,
   ⟨"SE_Vx__NN", 0x3, none, none, none, fun f => .seVxNN f.x f.nn⟩,
   ⟨"SNE_Vx__NN", 0x4, none, none, none, fun f => .sneVxNN f.x f.nn⟩,
   ⟨"SE_Vx__Vy", 0x5, none, none, none, fun f => .seVxVy f.x f.y f.n⟩,
   ⟨"LD_Vx__NN", 0x6, none, none, none, fun f => .ldVxNN f.x f.nn⟩,
   ⟨"ADD_Vx__NN", 0x7, none, none, none, fun f => .addVxNN f.x f.nn⟩]

/-- Class 8, selected by N (R77). -/
def opcodeRowsClass8 : List OpcodeRow :=
  [⟨"LD_Vx__Vy", 0x8, none, none, some 0x0, fun f => .ldVxVy f.x f.y⟩,
   ⟨"OR_Vx__Vy", 0x8, none, none, some 0x1, fun f => .orVxVy f.x f.y⟩,
   ⟨"AND_Vx__Vy", 0x8, none, none, some 0x2, fun f => .andVxVy f.x f.y⟩,
   ⟨"XOR_Vx__Vy", 0x8, none, none, some 0x3, fun f => .xorVxVy f.x f.y⟩,
   ⟨"ADD_Vx__Vy", 0x8, none, none, some 0x4, fun f => .addVxVy f.x f.y⟩,
   ⟨"SUB_Vx__Vy", 0x8, none, none, some 0x5, fun f => .subVxVy f.x f.y⟩,
   ⟨"SHR_Vx", 0x8, none, none, some 0x6, fun f => .shrVx f.x f.y⟩,
   ⟨"SUBN_Vx__Vy", 0x8, none, none, some 0x7, fun f => .subnVxVy f.x f.y⟩,
   ⟨"SHL_Vx", 0x8, none, none, some 0xE, fun f => .shlVx f.x f.y⟩]

/-- Classes 9 to D (R75). -/
def opcodeRowsMiddle : List OpcodeRow :=
  [⟨"SNE_Vx__Vy", 0x9, none, none, none, fun f => .sneVxVy f.x f.y f.n⟩,
   ⟨"LD_I__NNN", 0xA, none, none, none, fun f => .ldI f.nnn⟩,
   ⟨"JP_V0__NNN", 0xB, none, none, none, fun f => .jpV0 f.nnn⟩,
   ⟨"RND_Vx__NN", 0xC, none, none, none, fun f => .rndVxNN f.x f.nn⟩,
   ⟨"DRW_Vx__Vy__N", 0xD, none, none, none, fun f => .drw f.x f.y f.n⟩]

/-- Classes E and F, selected by NN (R78, R79). -/
def opcodeRowsHigh : List OpcodeRow :=
  [⟨"SKP_Vx", 0xE, none, some 0x9, some 0xE, fun f => .skp f.x⟩,
   ⟨"SKNP_Vx", 0xE, none, some 0xA, some 0x1, fun f => .sknp f.x⟩,
   ⟨"LD_Vx__DT", 0xF, none, some 0x0, some 0x7, fun f => .ldVxDT f.x⟩,
   ⟨"LD_Vx__K", 0xF, none, some 0x0, some 0xA, fun f => .ldVxK f.x⟩,
   ⟨"LD_DT__Vx", 0xF, none, some 0x1, some 0x5, fun f => .ldDTVx f.x⟩,
   ⟨"LD_ST__Vx", 0xF, none, some 0x1, some 0x8, fun f => .ldSTVx f.x⟩,
   ⟨"ADD_I__Vx", 0xF, none, some 0x1, some 0xE, fun f => .addIVx f.x⟩,
   ⟨"LD_F__Vx", 0xF, none, some 0x2, some 0x9, fun f => .ldFVx f.x⟩,
   ⟨"LD_B__Vx", 0xF, none, some 0x3, some 0x3, fun f => .ldBVx f.x⟩,
   ⟨"LD__I___Vx", 0xF, none, some 0x5, some 0x5, fun f => .ldMemVx f.x⟩,
   ⟨"LD_Vx___I", 0xF, none, some 0x6, some 0x5, fun f => .ldVxMem f.x⟩]

/-- The opcode map (R75), in the order of spec/opcode_table.json. -/
def opcodeTable : List OpcodeRow :=
  opcodeRowsLow ++ opcodeRowsClass8 ++ opcodeRowsMiddle ++ opcodeRowsHigh

/-- The decoder: total, and a word that no row selects is `unknown` (R71, R80, R82). -/
def decode (w : Word) : Decoded :=
  match opcodeTable.find? fun r => r.selects (fieldsOf w) with
  | some r => .instr (r.build (fieldsOf w))
  | none => .unknown w

/-- Decoding from the two bytes at `PC` and `PC + 1` (R57, R70). -/
def decodeBytes (hi lo : Byte) : Decoded := decode (wordOfBytes hi lo)

/-- The word of an instruction (R72, R75 to R79). -/
def encode : Instr → Word
  | .cls => 0x00E0
  | .ret => 0x00EE
  | .jp nnn => 0x1#4 ++ nnn
  | .call nnn => 0x2#4 ++ nnn
  | .seVxNN x nn => 0x3#4 ++ x ++ nn
  | .sneVxNN x nn => 0x4#4 ++ x ++ nn
  | .seVxVy x y n => 0x5#4 ++ x ++ y ++ n
  | .ldVxNN x nn => 0x6#4 ++ x ++ nn
  | .addVxNN x nn => 0x7#4 ++ x ++ nn
  | .ldVxVy x y => 0x8#4 ++ x ++ y ++ 0x0#4
  | .orVxVy x y => 0x8#4 ++ x ++ y ++ 0x1#4
  | .andVxVy x y => 0x8#4 ++ x ++ y ++ 0x2#4
  | .xorVxVy x y => 0x8#4 ++ x ++ y ++ 0x3#4
  | .addVxVy x y => 0x8#4 ++ x ++ y ++ 0x4#4
  | .subVxVy x y => 0x8#4 ++ x ++ y ++ 0x5#4
  | .shrVx x y => 0x8#4 ++ x ++ y ++ 0x6#4
  | .subnVxVy x y => 0x8#4 ++ x ++ y ++ 0x7#4
  | .shlVx x y => 0x8#4 ++ x ++ y ++ 0xE#4
  | .sneVxVy x y n => 0x9#4 ++ x ++ y ++ n
  | .ldI nnn => 0xA#4 ++ nnn
  | .jpV0 nnn => 0xB#4 ++ nnn
  | .rndVxNN x nn => 0xC#4 ++ x ++ nn
  | .drw x y n => 0xD#4 ++ x ++ y ++ n
  | .skp x => 0xE#4 ++ x ++ 0x9E#8
  | .sknp x => 0xE#4 ++ x ++ 0xA1#8
  | .ldVxDT x => 0xF#4 ++ x ++ 0x07#8
  | .ldVxK x => 0xF#4 ++ x ++ 0x0A#8
  | .ldDTVx x => 0xF#4 ++ x ++ 0x15#8
  | .ldSTVx x => 0xF#4 ++ x ++ 0x18#8
  | .addIVx x => 0xF#4 ++ x ++ 0x1E#8
  | .ldFVx x => 0xF#4 ++ x ++ 0x29#8
  | .ldBVx x => 0xF#4 ++ x ++ 0x33#8
  | .ldMemVx x => 0xF#4 ++ x ++ 0x55#8
  | .ldVxMem x => 0xF#4 ++ x ++ 0x65#8

/-- The host's question: the instruction read from bits `w`, numbered as the opcode table numbers them, laid out
in memory as two bytes, high byte first. -/
def decodeTableWord (nbits w : Nat) : Option Instr :=
  let word := BitVec.ofNat 16 (w % 2 ^ nbits)
  match decodeBytes (highByte word) (lowByte word) with
  | .instr i => some i
  | .unknown _ => none

end Sys2Proof
end

