-- ==== Sys2Proof/Machine/State.lean ====
section
/-! DEFINITION. The machine's state (10_state.md R20 to R35), its error values (60_exceptions.md R231), the
events the host delivers (R248), and the two outcomes of a step that are no next state. -/

namespace Sys2Proof.Machine

/-- Memory as a list of (address, byte) pairs in one canonical form (`Memory.wf`, Machine/Ops.lean); what an
unlisted address reads as is `Memory.unlisted` there. -/
abbrev Memory := List Host.Cell

/-- The operation a stack fault was attempted by (R231). -/
inductive StackOp where
  | call
  | return
  deriving DecidableEq, Repr

/-- The fatal errors with their payloads (R231). An address of a data access is `I + k` computed without wrap
(R210), so it is a number and not a 16-bit word. -/
inductive Error where
  | unknownOpcode (pc : Word) (word : Word)
  | stackFault (sp : Nat) (op : StackOp)
  | pcOutOfRange (pc : Word)
  | pcMisaligned (pc : Word)
  | memOutOfRange (pc : Word) (addr : Nat)
  | reservedWrite (pc : Word) (addr : Nat)
  | keyIndexOutOfRange (pc : Word) (value : Byte)
  deriving DecidableEq, Repr

/-- The events the host delivers after creation (R248). A key is one of 16. -/
inductive Event where
  | step
  | tick
  | keyDown (k : Nibble)
  | keyUp (k : Nibble)
  deriving DecidableEq, Repr

/-- Why a step can stop the model. The spec's own errors are none of these: they end in a next state with the
halt record set (R230, R247). -/
inductive Fault where
  /-- Raised by CALL and RET when the stack array has no entry at the index they use. The array has `STACK_CAP`
  entries and `SP` is in 0..`STACK_CAP` (R26), so this cannot happen in a state that meets `Inv`
  (Safety.lean); log entry 9. Safe: the model stops where the spec describes no such state. -/
  | noStackEntry
  deriving DecidableEq, Repr

/-- Why a step can have no meaning. -/
inductive Refusal where
  /-- Raised by an arm of `exec` whose instruction has no meaning yet: by none, in this model. Safe. -/
  | notModelled (mnemonic : String)
  deriving DecidableEq, Repr

/-- The machine's state. Its components are those of 10_state.md; the last two fields are the model's own. -/
structure State where
  /-- `V0`..`VF` (R20). -/
  v : Vector Byte 16
  /-- The index register (R23). -/
  i : Word
  /-- The program counter (R24). -/
  pc : Word
  /-- The stack pointer, the number of stack entries in use (R26). -/
  sp : Nat
  /-- The stack array `S[0 .. STACK_CAP−1]` (R26). -/
  stack : List Word
  /-- `STACK_CAP`, fixed at creation (R9, R34); kept here so that every statement holds for every capacity. -/
  stackCap : Nat
  /-- The delay timer (R27). -/
  dt : Byte
  /-- The sound timer (R27). -/
  st : Byte
  /-- The display buffer (R28): 32 rows of 64 cells, true for on. -/
  display : Vector (Vector Bool 64) 32
  /-- The keyboard flags, true for down (R29). -/
  keys : Vector Bool 16
  /-- The pending key-wait marker `W` (R30). -/
  wait : Option Reg
  /-- The halt record `H` (R31). -/
  halt : Option Error
  /-- Memory `M` (R33, R50). -/
  mem : Memory
  /-- The model's own: how many random bytes have been drawn, so that each RND draws afresh (log entry 5). -/
  draws : Nat
  /-- The model's own: the events the host delivers next, oldest first; when there are none the host delivers
  Step (log entry 4). -/
  inbox : List Event
  deriving DecidableEq, Repr

/-- The machine right after creation with an empty image and the default parameters (R35, R270). -/
def State.reset : State where
  v := Vector.replicate 16 0
  i := 0
  pc := BitVec.ofNat 16 Config.loadAddr
  sp := 0
  stack := List.replicate Config.defaultStackCap 0
  stackCap := Config.defaultStackCap
  dt := 0
  st := 0
  display := Vector.replicate 32 (Vector.replicate 64 false)
  keys := Vector.replicate 16 false
  wait := none
  halt := none
  mem := []
  draws := 0
  inbox := []

end Sys2Proof.Machine
end

