-- ==== Sys2Proof/Machine/Ops.lean ====
section
/-! DEFINITION. The named operations over memory, registers, stack, keys and display cells, the raising of a
fatal error, and the advance of `PC`. -/

namespace Sys2Proof.Machine

/-- What executing an instruction or delivering an event answers. -/
abbrev Result := Host.Outcome State Fault Refusal

/-! ### Memory -/

/-- The default `FONT` (R55, decision D10): 16 glyphs of 5 bytes; log entry 2. -/
def defaultFont : List Byte :=
  [0xF0, 0x90, 0x90, 0x90, 0xF0] ++ [0x20, 0x60, 0x20, 0x20, 0x70] ++
  [0xF0, 0x10, 0xF0, 0x80, 0xF0] ++ [0xF0, 0x10, 0xF0, 0x10, 0xF0] ++
  [0x90, 0x90, 0xF0, 0x10, 0x10] ++ [0xF0, 0x80, 0xF0, 0x10, 0xF0] ++
  [0xF0, 0x80, 0xF0, 0x90, 0xF0] ++ [0xF0, 0x10, 0x20, 0x40, 0x40] ++
  [0xF0, 0x90, 0xF0, 0x90, 0xF0] ++ [0xF0, 0x90, 0xF0, 0x10, 0xF0] ++
  [0xF0, 0x90, 0xF0, 0x90, 0x90] ++ [0xE0, 0x90, 0xE0, 0x90, 0xE0] ++
  [0xF0, 0x80, 0x80, 0x80, 0xF0] ++ [0xE0, 0x90, 0x90, 0x90, 0xE0] ++
  [0xF0, 0x80, 0xF0, 0x80, 0xF0] ++ [0xF0, 0x80, 0xF0, 0x80, 0x80]

/-- What an unlisted address reads as: its creation value with the default font and an empty image, which is the
font at 0x000..0x04F and 0 elsewhere (R35, R52, R56). -/
def Memory.unlisted (a : Nat) : Byte := defaultFont.getD a 0

/-- The byte at an address (the `M[a]` of R50). -/
def Memory.read : Memory → Nat → Byte
  | [], a => Memory.unlisted a
  | (b, w) :: m, a => if a = b then w else Memory.read m a

/-- `M[a] <- v` on the canonical form: the list stays sorted, and no entry repeats an unlisted value. -/
def Memory.write : Memory → Nat → Byte → Memory
  | [], a, v => if v = Memory.unlisted a then [] else [(a, v)]
  | (b, w) :: m, a, v =>
    if a < b then
      if v = Memory.unlisted a then (b, w) :: m else (a, v) :: (b, w) :: m
    else if a = b then
      if v = Memory.unlisted a then m else (a, v) :: m
    else (b, w) :: Memory.write m a v

/-- Bytes written at increasing addresses from `a` on (R210: "in increasing address order"). -/
def Memory.writeAll : Memory → Nat → List Byte → Memory
  | m, _, [] => m
  | m, a, b :: bs => Memory.writeAll (Memory.write m a b) (a + 1) bs

/-- The `n` bytes at `a` and on, lowest address first. -/
def Memory.readAll (m : Memory) (a n : Nat) : List Byte :=
  (List.range n).map fun k => Memory.read m (a + k)

/-- The canonical form: addresses strictly rising and inside the 4096 bytes, and no entry equal to what an
unlisted address reads as. -/
abbrev Memory.wf (m : Memory) : Prop :=
  List.Pairwise (fun p q => p.1 < q.1) m ∧
    ∀ c ∈ m, c.1 < Config.memSize ∧ c.2 ≠ Memory.unlisted c.1

/-! ### Registers, keys, display cells, stack -/

/-- `V[x]` (R20). -/
def State.reg (s : State) (x : Reg) : Byte := s.v[x.toNat]'x.isLt

/-- `V[x] <- b` (R20). -/
def State.setReg (s : State) (x : Reg) (b : Byte) : State :=
  { s with v := s.v.set x.toNat b x.isLt }

/-- The index of `VF`, the flags register (R12, R21). -/
def vf : Reg := 0xF

/-- `K[k]` (R29). -/
def State.key (s : State) (k : Nibble) : Bool := s.keys[k.toNat]'k.isLt

/-- `K[k] <- b` (R242, R243). -/
def State.setKey (s : State) (k : Nibble) (b : Bool) : State :=
  { s with keys := s.keys.set k.toNat b k.isLt }

/-- A display buffer's cell in column `x` and row `y` (R28). -/
def displayCell (d : Vector (Vector Bool 64) 32) (x : Fin 64) (y : Fin 32) : Bool :=
  (d[y.val]'y.isLt)[x.val]'x.isLt

/-- `D[x][y]` (R28). -/
def State.cell (s : State) (x : Fin 64) (y : Fin 32) : Bool := displayCell s.display x y

/-- The stack entry `S[k]`, where the array has one (R26). -/
def State.stackEntry (s : State) (k : Nat) : Option Word := s.stack[k]?

/-! ### Errors and the advance of PC -/

/-- `raise E(info)` (R230, R107): nothing of the step is kept but the halt record. There is no handler, no vector
and no saved context (R238), and no return from an error (R239). -/
def State.raise (s : State) (e : Error) : Result := .next { s with halt := some e }

/-- The default advance, one instruction width (R105). -/
def State.advance (s : State) : State := { s with pc := s.pc + 2 }

/-- The advance of a skip: one extra instruction if the condition holds (R106, R123). -/
def State.skipIf (s : State) (c : Bool) : State :=
  { s with pc := if c then s.pc + 4 else s.pc + 2 }

/-- The code of an error (R231, decision D26). -/
def Error.code : Error → Nat
  | .unknownOpcode _ _ => 1
  | .stackFault _ _ => 2
  | .pcOutOfRange _ => 3
  | .pcMisaligned _ => 4
  | .memOutOfRange _ _ => 5
  | .reservedWrite _ _ => 6
  | .keyIndexOutOfRange _ _ => 7

end Sys2Proof.Machine
end

