-- ==== Sys2Proof/Machine/Create.lean ====
section
/-! DEFINITION. Creation, the only reset (70_reset_and_hazards.md R270 to R272). -/

namespace Sys2Proof.Machine

/-- Why no machine is created. -/
inductive LoadError where
  /-- The image does not fit in 0x200..0xFFF (R271). -/
  | imageTooLong
  /-- The parameters are not legal values of R9. -/
  | badParameters
  deriving DecidableEq, Repr

/-- What creation answers. -/
inductive Creation where
  | created (s : State)
  | notCreated (e : LoadError)
  deriving DecidableEq, Repr

/-- `Create(image, STACK_CAP, FONT)` (R270): every component at its value of R35, then the font at 0x000, then the
image at 0x200, byte for byte, an odd length included (R271, decision D28). -/
def create (p : Params) (image : List Byte) : Creation :=
  if !p.wellFormed then .notCreated .badParameters
  else if !imageFits image then .notCreated .imageTooLong
  else
    .created { State.reset with
      stack := List.replicate p.stackCap 0
      stackCap := p.stackCap
      mem := Memory.writeAll (Memory.writeAll [] 0 p.font) Config.loadAddr image }

/-- The spec's default parameters (R9). -/
def defaultParams : Params where
  stackCap := Config.defaultStackCap
  font := defaultFont

end Sys2Proof.Machine
end

