-- ==== Sys2Proof/Machine/Operands.lean ====
section
/-! DEFINITION. The operand forms: the zero-extended address field (R73), the effective address `I + k` with its
checks (R210, R58, R59), the display coordinates (R171), the font address (R213) and the decimal digits (R214). -/

namespace Sys2Proof.Machine

/-- `zext_16(NNN)` (R73). -/
def addrOperand (nnn : Addr12) : Word := nnn.setWidth 16

/-- The effective address `I + k`, computed without wrap (R210). -/
abbrev ea (s : State) (k : Nat) : Nat := s.i.toNat + k

/-- The error of reading address `a`, if reading it is one (R58). -/
def readFault (s : State) (a : Nat) : Option Error :=
  if Config.memSize ≤ a then some (.memOutOfRange s.pc a) else none

/-- The error of writing address `a`, if writing it is one (R59). -/
def writeFault (s : State) (a : Nat) : Option Error :=
  if Config.memSize ≤ a then some (.memOutOfRange s.pc a)
  else if a < Config.reservedEnd then some (.reservedWrite s.pc a)
  else none

/-- R58's `MemRead(a, 1)`. -/
def memRead (s : State) (a : Nat) : Except Error Byte :=
  match readFault s a with
  | some e => .error e
  | none => .ok (Memory.read s.mem a)

/-- R59's `MemWrite(a, 1, v)`. -/
def memWrite (s : State) (a : Nat) (v : Byte) : Except Error State :=
  match writeFault s a with
  | some e => .error e
  | none => .ok { s with mem := Memory.write s.mem a v }

/-- The check of the `n` reads at `I` .. `I + n − 1` before any of them is made: the error of the smallest
address that has one (R210). -/
def checkReads (s : State) (n : Nat) : Option Error :=
  (List.range n).findSome? fun k => readFault s (ea s k)

/-- The check of the `n` writes at `I` .. `I + n − 1` before any of them is made: first the range of the
addresses, then the reserved bytes (R210). -/
def checkWrites (s : State) (n : Nat) : Option Error :=
  match checkReads s n with
  | some e => some e
  | none => (List.range n).findSome? fun k => writeFault s (ea s k)

/-- `x0 = V[X] mod 64` (R171). -/
def drawColumn (s : State) (x : Reg) : Nat := (s.reg x).toNat % 64

/-- `y0 = V[Y] mod 32` (R171). -/
def drawRow (s : State) (y : Reg) : Nat := (s.reg y).toNat % 32

/-- `5 * zext_16(V[X])` (R213). -/
def fontAddress (b : Byte) : Word := BitVec.ofNat 16 (5 * b.toNat)

/-- The digits LD B stores: hundreds, tens, ones (R214). -/
def bcdDigits (b : Byte) : List Byte :=
  [BitVec.ofNat 8 (b.toNat / 100), BitVec.ofNat 8 (b.toNat / 10 % 10), BitVec.ofNat 8 (b.toNat % 10)]

/-- The values of `V0` .. `VX`, which LD [I], Vx stores (R215). -/
def regsUpTo (s : State) (x : Reg) : List Byte :=
  (List.range (x.toNat + 1)).map fun k => s.reg (BitVec.ofNat 4 k)

/-- Registers from number `k` on take the bytes in order (R216). -/
def State.setRegsFrom (s : State) (k : Nat) : List Byte → State
  | [] => s
  | b :: bs => (s.setReg (BitVec.ofNat 4 k) b).setRegsFrom (k + 1) bs

end Sys2Proof.Machine
end

