-- ==== Sys2Proof/Machine/ControlFlow.lean ====
section
/-! DEFINITION. The meanings of 41_control_flow.md: return, jumps, call and the skips on registers. -/

namespace Sys2Proof.Machine

/-- RET (R120): `PC` takes the popped address, with no further advance. -/
def execRet (s : State) : Result :=
  if s.sp = 0 then s.raise (.stackFault 0 .return)
  else
    match s.stackEntry (s.sp - 1) with
    | some a => .next { s with sp := s.sp - 1, pc := a }
    | none => .fault .noStackEntry

/-- JP NNN (R121). -/
def execJp (nnn : Addr12) (s : State) : Result :=
  .next { s with pc := addrOperand nnn }

/-- CALL NNN (R122, conflict C4): the return address `PC + 2` is pushed. -/
def execCall (nnn : Addr12) (s : State) : Result :=
  if s.sp = s.stackCap then s.raise (.stackFault s.sp .call)
  else
    match s.stackEntry s.sp with
    | some _ =>
      .next { s with
        stack := s.stack.set s.sp (s.pc + 2)
        sp := s.sp + 1
        pc := addrOperand nnn }
    | none => .fault .noStackEntry

/-- SE Vx, NN (R123). -/
def execSeVxNN (x : Reg) (nn : Byte) (s : State) : Result :=
  .next (s.skipIf (s.reg x == nn))

/-- SNE Vx, NN (R124). -/
def execSneVxNN (x : Reg) (nn : Byte) (s : State) : Result :=
  .next (s.skipIf (s.reg x != nn))

/-- SE Vx, Vy (R125); the nibble N is ignored (R74). -/
def execSeVxVy (x y : Reg) (s : State) : Result :=
  .next (s.skipIf (s.reg x == s.reg y))

/-- SNE Vx, Vy (R126); the nibble N is ignored (R74). -/
def execSneVxVy (x y : Reg) (s : State) : Result :=
  .next (s.skipIf (s.reg x != s.reg y))

/-- JP V0, NNN (R127): the offset is `V0`, and the sum is not reduced. -/
def execJpV0 (nnn : Addr12) (s : State) : Result :=
  .next { s with pc := addrOperand nnn + (s.reg 0).setWidth 16 }

end Sys2Proof.Machine
end

