-- ==== Sys2Proof/Machine/Flags.lean ====
section
/-! DEFINITION. The results and flags of the 8-bit operations (42_register_alu.md R142, R147 to R151, R153):
operands as numbers, the exact result, then the reduction modulo 256. -/

namespace Sys2Proof.Machine

/-- A flag as the byte VF takes: 1 or 0. -/
def flagByte (b : Bool) : Byte := if b then 1 else 0

/-- `(a + b) mod 256` (R141, R147). -/
def sum8 (a b : Byte) : Byte := BitVec.ofNat 8 ((a.toNat + b.toNat) % 256)

/-- Carry: the unsigned sum exceeds 255 (R147). -/
def carry8 (a b : Byte) : Bool := decide (255 < a.toNat + b.toNat)

/-- `(a - b) mod 256` (R148, R150). -/
def diff8 (a b : Byte) : Byte := BitVec.ofNat 8 ((a.toNat + 256 - b.toNat) % 256)

/-- No borrow: the minuend is at least the subtrahend, unsigned (R148, R150). -/
def noBorrow8 (a b : Byte) : Bool := decide (b.toNat ≤ a.toNat)

/-- `a >> 1` (R149). -/
def half8 (a : Byte) : Byte := BitVec.ofNat 8 (a.toNat / 2)

/-- The bit a right shift drops, bit 0 (R149). -/
def lowBit8 (a : Byte) : Bool := a.getLsbD 0

/-- `(a << 1) mod 256` (R151). -/
def double8 (a : Byte) : Byte := BitVec.ofNat 8 (a.toNat * 2 % 256)

/-- The bit a left shift drops, bit 7 (R151). -/
def highBit8 (a : Byte) : Bool := a.getLsbD 7

/-- The result is written to `V[X]`, then the flag to VF, so that for X = F the flag stays (R142, decision D6). -/
def State.setResultAndFlag (s : State) (x : Reg) (result : Byte) (flag : Bool) : State :=
  (s.setReg x result).setReg vf (flagByte flag)

end Sys2Proof.Machine
end

