-- ==== Sys2Proof/Machine/Display.lean ====
section
/-! DEFINITION. The meanings of 43_display.md: clear-screen and draw-sprite. -/

namespace Sys2Proof.Machine

/-- What a drawing has made so far: the display buffer, and whether a cell went from on to off (R174). -/
abbrev Drawing := Vector (Vector Bool 64) 32 × Bool

/-- One sprite bit that is 1, drawn at column `x` and row `y`: the cell is flipped, and a cell that was on is a
collision (R171, R174). -/
def plotCell (d : Drawing) (x : Fin 64) (y : Fin 32) : Drawing :=
  (d.1.set y.val ((d.1[y.val]'y.isLt).set x.val (!(displayCell d.1 x y)) x.isLt) y.isLt,
   d.2 || displayCell d.1 x y)

/-- Column `c` of a sprite drawn from column `x0` on, wrapped (R173). -/
def wrapColumn (x0 c : Nat) : Fin 64 := ⟨(x0 + c) % 64, Nat.mod_lt _ (by decide)⟩

/-- Row `r` of a sprite drawn from row `y0` on, wrapped (R173). -/
def wrapRow (y0 r : Nat) : Fin 32 := ⟨(y0 + r) % 32, Nat.mod_lt _ (by decide)⟩

/-- The first `k` columns of a sprite row byte drawn at row `y`; bit 7 is the leftmost pixel (R172, decision
D11). -/
def plotByte (d : Drawing) (x0 : Nat) (y : Fin 32) (b : Byte) : Nat → Drawing
  | 0 => d
  | k + 1 =>
    let d' := plotByte d x0 y b k
    if b.getLsbD (7 - k) then plotCell d' (wrapColumn x0 k) y else d'

/-- The sprite's bytes drawn from row `y0 + r` on, one byte a row (R172). -/
def plotSprite (d : Drawing) (x0 y0 : Nat) (r : Nat) : List Byte → Drawing
  | [] => d
  | b :: bs => plotSprite (plotByte d x0 (wrapRow y0 r) b 8) x0 y0 (r + 1) bs

/-- CLS (R170). -/
def execCls (s : State) : Result :=
  .next { s with display := Vector.replicate 32 (Vector.replicate 64 false) }.advance

/-- DRW Vx, Vy, N (R171): every address is checked before any write, the coordinates are read before VF is
cleared (decision D12), and VF ends as the collision flag. -/
def execDrw (x y : Reg) (n : Nibble) (s : State) : Result :=
  match checkReads s n.toNat with
  | some e => s.raise e
  | none =>
    let x0 := drawColumn s x
    let y0 := drawRow s y
    let bytes := Memory.readAll s.mem (ea s 0) n.toNat
    let cleared := s.setReg vf 0
    let d := plotSprite (cleared.display, false) x0 y0 0 bytes
    .next ({ cleared with display := d.1 }.setReg vf (flagByte d.2)).advance

end Sys2Proof.Machine
end

