-- ==== Sys2Proof/Machine/IndexMemory.lean ====
section
/-! DEFINITION. The meanings of 45_index_memory.md: the index register, and the transfers at `I`. No transfer
changes `I` (decision D8), and each checks every address before it makes any access (R210). -/

namespace Sys2Proof.Machine

/-- The bytes stored at `I` and on, after the check of R210. -/
def storeAtI (s : State) (bytes : List Byte) : Result :=
  match checkWrites s bytes.length with
  | some e => s.raise e
  | none => .next { s with mem := Memory.writeAll s.mem (ea s 0) bytes }.advance

/-- LD I, NNN (R211). -/
def execLdI (nnn : Addr12) (s : State) : Result :=
  .next { s with i := addrOperand nnn }.advance

/-- ADD I, Vx (R212, decision D9): modulo 65536, VF not written. -/
def execAddIVx (x : Reg) (s : State) : Result :=
  .next { s with i := s.i + (s.reg x).setWidth 16 }.advance

/-- LD F, Vx (R213): five times the whole value of `V[X]`. -/
def execLdFVx (x : Reg) (s : State) : Result :=
  .next { s with i := fontAddress (s.reg x) }.advance

/-- LD B, Vx (R214). -/
def execLdBVx (x : Reg) (s : State) : Result :=
  storeAtI s (bcdDigits (s.reg x))

/-- LD [I], Vx (R215). -/
def execLdMemVx (x : Reg) (s : State) : Result :=
  storeAtI s (regsUpTo s x)

/-- LD Vx, [I] (R216). -/
def execLdVxMem (x : Reg) (s : State) : Result :=
  match checkReads s (x.toNat + 1) with
  | some e => s.raise e
  | none => .next (s.setRegsFrom 0 (Memory.readAll s.mem (ea s 0) (x.toNat + 1))).advance

end Sys2Proof.Machine
end

