-- ==== Sys2Proof/Machine/KeysTimers.lean ====
section
/-! DEFINITION. The meanings of 44_keys_timers.md: skips on keys, access to the timers, wait-for-key. -/

namespace Sys2Proof.Machine

/-- A skip on the key numbered by `V[X]`, whose flag must be `down`; a number above 15 is an error (R190, R191,
decision D19). -/
def skipOnKey (x : Reg) (down : Bool) (s : State) : Result :=
  if 0xF < (s.reg x).toNat then s.raise (.keyIndexOutOfRange s.pc (s.reg x))
  else .next (s.skipIf (s.key ((s.reg x).setWidth 4) == down))

/-- SKP Vx (R190). -/
def execSkp (x : Reg) (s : State) : Result := skipOnKey x true s

/-- SKNP Vx (R191). -/
def execSknp (x : Reg) (s : State) : Result := skipOnKey x false s

/-- LD Vx, DT (R192). -/
def execLdVxDT (x : Reg) (s : State) : Result :=
  .next (s.setReg x s.dt).advance

/-- LD Vx, K (R193): `PC` stays at this instruction; the wait is resolved by a KeyDown event (R244). -/
def execLdVxK (x : Reg) (s : State) : Result :=
  .next { s with wait := some x }

/-- LD DT, Vx (R194). -/
def execLdDTVx (x : Reg) (s : State) : Result :=
  .next { s with dt := s.reg x }.advance

/-- LD ST, Vx (R195). -/
def execLdSTVx (x : Reg) (s : State) : Result :=
  .next { s with st := s.reg x }.advance

end Sys2Proof.Machine
end

