-- ==== Sys2Proof/Machine/RegisterAlu.lean ====
section
/-! DEFINITION. The meanings of 42_register_alu.md: register loads and the 8-bit operations. -/

namespace Sys2Proof.Machine

/-- LD Vx, NN (R140). -/
def execLdVxNN (x : Reg) (nn : Byte) (s : State) : Result :=
  .next (s.setReg x nn).advance

/-- ADD Vx, NN (R141): no flag. -/
def execAddVxNN (x : Reg) (nn : Byte) (s : State) : Result :=
  .next (s.setReg x (sum8 (s.reg x) nn)).advance

/-- LD Vx, Vy (R143). -/
def execLdVxVy (x y : Reg) (s : State) : Result :=
  .next (s.setReg x (s.reg y)).advance

/-- OR Vx, Vy (R144). -/
def execOrVxVy (x y : Reg) (s : State) : Result :=
  .next (s.setReg x (s.reg x ||| s.reg y)).advance

/-- AND Vx, Vy (R145). -/
def execAndVxVy (x y : Reg) (s : State) : Result :=
  .next (s.setReg x (s.reg x &&& s.reg y)).advance

/-- XOR Vx, Vy (R146). -/
def execXorVxVy (x y : Reg) (s : State) : Result :=
  .next (s.setReg x (s.reg x ^^^ s.reg y)).advance

/-- ADD Vx, Vy (R147): VF is the carry. -/
def execAddVxVy (x y : Reg) (s : State) : Result :=
  .next (s.setResultAndFlag x (sum8 (s.reg x) (s.reg y)) (carry8 (s.reg x) (s.reg y))).advance

/-- SUB Vx, Vy (R148): VF is 1 when there is no borrow. -/
def execSubVxVy (x y : Reg) (s : State) : Result :=
  .next (s.setResultAndFlag x (diff8 (s.reg x) (s.reg y)) (noBorrow8 (s.reg x) (s.reg y))).advance

/-- SHR Vx (R149, decision D4): `V[X]` is shifted, and Y is not read. -/
def execShrVx (x : Reg) (s : State) : Result :=
  .next (s.setResultAndFlag x (half8 (s.reg x)) (lowBit8 (s.reg x))).advance

/-- SUBN Vx, Vy (R150, decision D5). -/
def execSubnVxVy (x y : Reg) (s : State) : Result :=
  .next (s.setResultAndFlag x (diff8 (s.reg y) (s.reg x)) (noBorrow8 (s.reg y) (s.reg x))).advance

/-- SHL Vx (R151, decision D4): `V[X]` is shifted, and Y is not read. -/
def execShlVx (x : Reg) (s : State) : Result :=
  .next (s.setResultAndFlag x (double8 (s.reg x)) (highBit8 (s.reg x))).advance

/-- RND Vx, NN (R152, decision D30): the draw is a free value, and the next RND draws another. -/
def execRndVxNN (x : Reg) (nn : Byte) (s : State) : Result :=
  .next { (s.setReg x (Config.drawByte s.draws &&& nn)).advance with draws := s.draws + 1 }

end Sys2Proof.Machine
end

