-- ==== Sys2Proof/Machine/Events.lean ====
section
/-! DEFINITION. The events the host delivers (60_exceptions.md R240 to R248) and the fetch-decode-execute cycle of
a Step event (40_execution_cycle.md R100 to R108), and what the host may observe (10_state.md R37). -/

namespace Sys2Proof.Machine

/-! ### The Step event -/

/-- The error of fetching at `PC`, if fetching is one: out of range first, then misaligned (R102, R236). -/
def fetchFault (s : State) : Option Error :=
  if Config.memSize - 1 ≤ s.pc.toNat then some (.pcOutOfRange s.pc)
  else if s.pc.toNat % 2 = 1 then some (.pcMisaligned s.pc)
  else none

/-- The word at `PC`, high byte first (R103). -/
def fetchWord (s : State) : Word :=
  wordOfBytes (Memory.read s.mem s.pc.toNat) (Memory.read s.mem (s.pc.toNat + 1))

/-- The Step event (R100): no effect when halted (R247) or waiting (R101); else fetch, decode and execute one
instruction, or raise. -/
def stepEvent (s : State) : Result :=
  if s.halt.isSome then .next s
  else if s.wait.isSome then .next s
  else
    match fetchFault s with
    | some e => s.raise e
    | none =>
      match decode (fetchWord s) with
      | .unknown word => s.raise (.unknownOpcode s.pc word)
      | .instr i => exec i s

/-! ### The other events -/

/-- One timer's decrement: by one, never below zero (R240). -/
def timerDown (b : Byte) : Byte := BitVec.ofNat 8 (b.toNat - 1)

/-- The Tick event (R240). -/
def tickEvent (s : State) : State :=
  if s.halt.isSome then s else { s with dt := timerDown s.dt, st := timerDown s.st }

/-- The key-wait resolution (R244): the key's number goes to `V[x]`, the marker is cleared, `PC` advances. -/
def resolveWait (x : Reg) (k : Nibble) (s : State) : State :=
  { (s.setReg x (k.setWidth 8)).advance with wait := none }

/-- The KeyDown event (R242). -/
def keyDownEvent (k : Nibble) (s : State) : State :=
  if s.halt.isSome then s
  else
    match s.wait with
    | some x => resolveWait x k (s.setKey k true)
    | none => s.setKey k true

/-- The KeyUp event (R243). -/
def keyUpEvent (k : Nibble) (s : State) : State :=
  if s.halt.isSome then s else s.setKey k false

/-- One event taking effect wholly between two others (R63, R245). -/
def deliver (e : Event) (s : State) : Result :=
  match e with
  | .step => stepEvent s
  | .tick => .next (tickEvent s)
  | .keyDown k => .next (keyDownEvent k s)
  | .keyUp k => .next (keyUpEvent k s)

/-- Events delivered one after another in the host's order (R245). -/
def deliverAll : List Event → State → Result
  | [], s => .next s
  | e :: es, s =>
    match deliver e s with
    | .next t => deliverAll es t
    | .fault r => .fault r
    | .refused r => .refused r

/-- One iteration of the host's loop: input events, then the ticks that are due, then one Step, which has no
effect while a key-wait is pending (R246). -/
def hostIteration (inputs : List Event) (ticks : Nat) : List Event :=
  inputs ++ List.replicate ticks .tick ++ [.step]

/-- The machine's next transition: the oldest event of the inbox, or a Step when the inbox is empty (log
entry 4). -/
def nextTransition (s : State) : Result :=
  match s.inbox with
  | [] => stepEvent s
  | e :: es => deliver e { s with inbox := es }

/-! ### The host's view, and placing an instruction -/

/-- What the host may observe (R37, R248, R253). -/
structure HostView where
  display : Vector (Vector Bool 64) 32
  dt : Byte
  st : Byte
  waiting : Bool
  halt : Option Error
  deriving DecidableEq, Repr

/-- The host's read-only view of a state (R37). -/
def State.view (s : State) : HostView where
  display := s.display
  dt := s.dt
  st := s.st
  waiting := s.wait.isSome
  halt := s.halt

/-- A state whose next transition fetches the given word: the word's bytes stand at `PC`, the machine is neither
halted nor waiting, no event comes first, and a `PC` that no fetch accepts is replaced by the load address. -/
def placeWord (s : State) (w : Word) : State :=
  let pc := match fetchFault s with
    | some _ => BitVec.ofNat 16 Config.loadAddr
    | none => s.pc
  { s with
    pc := pc
    mem := Memory.writeAll s.mem pc.toNat [highByte w, lowByte w]
    wait := none
    halt := none
    inbox := [] }

end Sys2Proof.Machine
end

