-- ==== Sys2Proof/Machine/Step.lean ====
section
/-! DEFINITION. The machine's step, and the state in which the next step runs a given instruction. -/

namespace Sys2Proof.Machine

/-- One transition of the machine (Machine/Events.lean; log entry 4). -/
def step (s : State) : Host.Outcome State Fault Refusal := nextTransition s

/-- `s` with the instruction of bits `w` stored where the next step fetches, so that the next step runs it
(log entry 6). -/
def State.withFetchWord (s : State) (nbits w : Nat) : State :=
  placeWord s (BitVec.ofNat 16 (w % 2 ^ nbits))

end Sys2Proof.Machine
end

