-- ==== Sys2Proof/Safety.lean ====
section
/-! DEFINITION. The terms the statements use: the invariant of the reachable states, the parts of the state and
what leaves them unchanged, the parts each instruction may write (10_state.md R36), the sprite as a set of cells
(43_display.md R172, R173), idle states (60_exceptions.md R249), and runs with their fairness (R254). -/

namespace Sys2Proof.Machine

/-- The invariant of the reachable states: memory in its canonical form; the stack array has `STACK_CAP` ≥ 16
entries of which `SP` are in use (R26), each even and at most 4096 (R105, R120); `PC` at most 0x10FE, the largest
value a rule writes (R25, R127); and a machine that waits has the `PC` of an instruction it fetched (R193, R244). -/
structure Inv (s : State) : Prop where
  mem_wf : Memory.wf s.mem
  cap_ge : Config.minStackCap ≤ s.stackCap
  stack_length : s.stack.length = s.stackCap
  sp_le : s.sp ≤ s.stackCap
  stack_even : ∀ a ∈ s.stack, a.toNat ≤ Config.memSize ∧ a.toNat % 2 = 0
  pc_le : s.pc.toNat ≤ 0x10FE
  wait_pc : s.wait.isSome = true → fetchFault s = none

/-- The parts of the state, each register, cell, key and byte of memory apart. -/
inductive Part where
  | v (r : Reg)
  | i
  | pc
  | stack
  | stackCap
  | dt
  | st
  | cell (x : Fin 64) (y : Fin 32)
  | key (k : Nibble)
  | wait
  | halt
  | byte (a : Nat)
  | draws
  | inbox

/-- Two states agree on a part. -/
def SameAt (s t : State) : Part → Prop
  | .v r => t.reg r = s.reg r
  | .i => t.i = s.i
  | .pc => t.pc = s.pc
  | .stack => t.sp = s.sp ∧ t.stack = s.stack
  | .stackCap => t.stackCap = s.stackCap
  | .dt => t.dt = s.dt
  | .st => t.st = s.st
  | .cell x y => t.cell x y = s.cell x y
  | .key k => t.key k = s.key k
  | .wait => t.wait = s.wait
  | .halt => t.halt = s.halt
  | .byte a => Memory.read t.mem a = Memory.read s.mem a
  | .draws => t.draws = s.draws
  | .inbox => t.inbox = s.inbox

/-- From `s` to `t` every part outside `written` is unchanged. -/
def Frame (s t : State) (written : Part → Prop) : Prop := ∀ p, ¬ written p → SameAt s t p

/-- The part is a display cell. -/
def Part.IsCell (p : Part) : Prop := ∃ x y, p = .cell x y

/-- The parts an instruction may write when it completes (R36 and the instruction rules). A store's bytes are at
the effective addresses its meaning stores to. -/
def writes (i : Instr) (s : State) (p : Part) : Prop :=
  match i with
  | .cls => p = .pc ∨ p.IsCell
  | .ret | .call _ => p = .pc ∨ p = .stack
  | .jp _ | .jpV0 _ => p = .pc
  | .seVxNN _ _ | .sneVxNN _ _ | .seVxVy _ _ _ | .sneVxVy _ _ _ | .skp _ | .sknp _ => p = .pc
  | .ldVxNN x _ | .addVxNN x _ | .ldVxVy x _ | .orVxVy x _ | .andVxVy x _ | .xorVxVy x _ | .ldVxDT x =>
    p = .pc ∨ p = .v x
  | .addVxVy x _ | .subVxVy x _ | .shrVx x _ | .subnVxVy x _ | .shlVx x _ =>
    p = .pc ∨ p = .v x ∨ p = .v vf
  | .rndVxNN x _ => p = .pc ∨ p = .v x ∨ p = .draws
  | .drw _ _ _ => p = .pc ∨ p = .v vf ∨ p.IsCell
  | .ldVxK _ => p = .wait
  | .ldDTVx _ => p = .pc ∨ p = .dt
  | .ldSTVx _ => p = .pc ∨ p = .st
  | .ldI _ | .addIVx _ | .ldFVx _ => p = .pc ∨ p = .i
  | .ldBVx _ => p = .pc ∨ ∃ k, k < 3 ∧ p = .byte (ea s k)
  | .ldMemVx x => p = .pc ∨ ∃ k, k ≤ x.toNat ∧ p = .byte (ea s k)
  | .ldVxMem x => p = .pc ∨ ∃ r : Reg, r.toNat ≤ x.toNat ∧ p = .v r

/-- The machine is neither halted nor waiting, and a fetch at its `PC` is no error (R100 to R102). -/
def Ready (s : State) : Prop := s.halt = none ∧ s.wait = none ∧ fetchFault s = none

/-- Whether the sprite of DRW Vx, Vy, N has a 1 bit at a display cell: the cell is `dx` columns right of and `dy`
rows below the start, both counted around the edges (R172, R173). -/
def spriteBit (s : State) (x y : Reg) (n : Nibble) (column : Fin 64) (row : Fin 32) : Bool :=
  let dx := (column.val + 64 - (s.reg x).toNat % 64) % 64
  let dy := (row.val + 32 - (s.reg y).toNat % 32) % 32
  decide (dx < 8) && decide (dy < n.toNat) && (Memory.read s.mem (ea s dy)).getLsbD (7 - dx)

/-- The `PC` an error record carries; a stack fault carries the stack pointer instead (R231). -/
def errorPc : Error → Option Word
  | .unknownOpcode pc _ => some pc
  | .stackFault _ _ => none
  | .pcOutOfRange pc => some pc
  | .pcMisaligned pc => some pc
  | .memOutOfRange pc _ => some pc
  | .reservedWrite pc _ => some pc
  | .keyIndexOutOfRange pc _ => some pc

/-- An idle state: running, with a jump to itself at `PC` (R249, decision D27). -/
def Idle (s : State) : Prop :=
  Ready s ∧ decode (fetchWord s) = .instr (.jp (s.pc.setWidth 12))

/-- An infinite run: the events delivered and the states between them (R245). -/
def EventRun (e : Nat → Event) (σ : Nat → State) : Prop :=
  ∀ n, deliver (e n) (σ n) = .next (σ (n + 1))

/-- Fairness (R254): Ticks recur, and Steps recur unless the machine keeps coming to wait or to be halted. -/
def Fair (e : Nat → Event) (σ : Nat → State) : Prop :=
  (∀ n, ∃ m, n ≤ m ∧ e m = .tick) ∧
    ∀ n, (∃ m, n ≤ m ∧ e m = .step) ∨ ∃ m, n ≤ m ∧ ((σ m).wait ≠ none ∨ (σ m).halt ≠ none)

end Sys2Proof.Machine
end

