-- ==== Sys2Proof/Certificates/Slice0/Obligations.lean ====
section
/-! DEFINITION. The statements for the provers. `Frame s t (writes i s)` says what instruction `i` leaves unchanged:
every part of the state outside `writes i s` (Safety.lean), each register, key, display cell and byte of memory read
one by one. Where a statement rests on one of the spec's own decisions (92_eei_decisions.md D<n>) its docstring says
so. -/

open Sys2Proof Sys2Proof.Machine

/-! ### Encoding -/

/-- Words written out from 30_encoding.md decode to their instructions: the three the source prints (0x6A05,
0x00E0, 0xF000) and, from the opcode map of decision D2, words of every family. -/
def Obligations.SpecWordsDecode : Prop :=
  decode 0x6A05 = .instr (.ldVxNN 0xA 0x05) ∧ decode 0x00E0 = .instr .cls ∧
  decode 0xF000 = .unknown 0xF000 ∧ decode 0x00EE = .instr .ret ∧
  decode 0x2300 = .instr (.call 0x300) ∧ decode 0x8FF4 = .instr (.addVxVy 0xF 0xF) ∧
  decode 0x8018 = .unknown 0x8018 ∧ decode 0x01E0 = .unknown 0x01E0 ∧
  decode 0xD015 = .instr (.drw 0 1 5) ∧ decode 0xE5A1 = .instr (.sknp 5) ∧
  decode 0xF30A = .instr (.ldVxK 3) ∧ decode 0xF255 = .instr (.ldMemVx 2) ∧
  decode 0xF265 = .instr (.ldVxMem 2)

/-- Every instruction's word decodes to it, with every operand at every value (R71 to R79; the map is decision D2, the
move 8XY0 decision D3, log entry 7). That the ignored nibbles of 5XYN, 9XYN, 8XY6 and 8XYE are operands is the model's
choice, log entry 13. -/
def Obligations.DecodeOfEncodeIsIdentity : Prop :=
  ∀ i : Instr, decode (encode i) = .instr i

/-- A word that decodes to an instruction is that instruction's word, so no bit of it is dropped (R71 to R79; the map is
decision D2, the move 8XY0 decision D3, log entry 7). For 5XYN, 9XYN, 8XY6 and 8XYE this holds because the nibbles that
the rules call ignored are operands of `Instr`, which is the model's choice, log entry 13. -/
def Obligations.EncodeOfDecodeIsIdentity : Prop :=
  ∀ (w : Word) (i : Instr), decode w = .instr i → encode i = w

/-- The decoder calls unknown exactly the illegal words of R80 (class 0 by decision D20, the discriminators by
decision D2, the move 8XY0 by decision D3; log entry 7). -/
def Obligations.UnknownWordsAreTheIllegalOnes : Prop :=
  ∀ w : Word, decode w = .unknown w ↔ illegalWord w = true

/-! ### The step -/

/-- R103: the word fetched is `M[PC]` in the high byte and `M[PC + 1]` in the low byte, of the current memory: bytes
written there are the ones fetched. A fetch is a function of the state and changes none. -/
def Obligations.FetchReadsCurrentBytesHighFirst : Prop :=
  (∀ s : State, (fetchWord s).toNat =
    256 * (Memory.read s.mem s.pc.toNat).toNat + (Memory.read s.mem (s.pc.toNat + 1)).toNat) ∧
  ∀ (s : State) (hi lo : Byte), Memory.wf s.mem → fetchFault s = none →
    (fetchWord { s with mem := Memory.writeAll s.mem s.pc.toNat [hi, lo] }).toNat =
      256 * hi.toNat + lo.toNat

/-- R100, R104: with no event in the inbox (the model's own field, log entry 4), a ready machine whose word decodes to
`i` steps as `exec i` does; the step adds nothing around it. -/
def Obligations.StepRunsTheDecodedInstruction : Prop :=
  ∀ (s : State) (i : Instr), s.inbox = [] → Ready s → decode (fetchWord s) = .instr i → step s = exec i s

/-- The model's choice, log entry 4: a step delivers the oldest event of the inbox, and a Step event when there is
none. -/
def Obligations.StepDeliversTheOldestEvent : Prop :=
  (∀ s : State, s.inbox = [] → step s = deliver .step s) ∧
  ∀ (s : State) (e : Event) (es : List Event), s.inbox = e :: es → step s = deliver e { s with inbox := es }

/-- R234: a fetch at a `PC` of 4095 or more, odd or even, halts with PcOutOfRange. -/
def Obligations.PcOutOfRangeHalts : Prop :=
  ∀ s : State, s.halt = none → s.wait = none → 4095 ≤ s.pc.toNat →
    deliver .step s = .next { s with halt := some (.pcOutOfRange s.pc) }

/-- R102 by decision D16: a fetch at an odd `PC` below 4095 halts with PcMisaligned. -/
def Obligations.OddPcHalts : Prop :=
  ∀ s : State, s.halt = none → s.wait = none → s.pc.toNat < 4095 → s.pc.toNat % 2 = 1 →
    deliver .step s = .next { s with halt := some (.pcMisaligned s.pc) }

/-- R232: a fetched word that decodes to no instruction halts with UnknownOpcode, carrying the `PC` at fetch and the
word; 0xF000 is such a word. -/
def Obligations.UnknownOpcodeHalts : Prop :=
  (∀ (s : State) (w : Word), Ready s → fetchWord s = w → (∀ i, decode w ≠ .instr i) →
    deliver .step s = .next { s with halt := some (.unknownOpcode s.pc w) }) ∧
  ∀ s : State, Ready s → fetchWord s = 0xF000 →
    deliver .step s = .next { s with halt := some (.unknownOpcode s.pc 0xF000) }

/-- R101: while a key-wait is pending a Step changes nothing, and no series of Steps, Ticks and KeyUps lifts the hold:
only the timers and the key flags change. A KeyDown lifts it; that one of a key already down does too is decision D29
(R242, log entry 16). -/
def Obligations.WaitIsLiftedOnlyByKeyDown : Prop :=
  ∀ (s : State) (x : Reg), s.halt = none → s.wait = some x →
    deliver .step s = .next s ∧
    (∀ es : List Event, (∀ k, Event.keyDown k ∉ es) →
      ∃ t, deliverAll es s = .next t ∧ t.wait = some x ∧
        Frame s t fun p => p = .dt ∨ p = .st ∨ ∃ k, p = .key k) ∧
    ∀ k, ∃ t, deliver (.keyDown k) s = .next t ∧ t.wait = none

/-- R247, decision D25: once the halt record is set, no series of events changes any state. -/
def Obligations.HaltedStateIsFrozen : Prop :=
  ∀ (s : State) (es : List Event), s.halt ≠ none → deliverAll es s = .next s

/-- R107, R108, R230: a Step that raises leaves the state as it was but for the halt record, and the record carries
the `PC` at fetch (a stack fault: the stack pointer). That errors are kept in a halt record is decision D25. -/
def Obligations.RaisingStepChangesOnlyTheHaltRecord : Prop :=
  ∀ (s t : State) (e : Error), s.halt = none → deliver .step s = .next t → t.halt = some e →
    t = { s with halt := some e } ∧
    (errorPc e = some s.pc ∨ e = .stackFault s.sp .call ∨ e = .stackFault s.sp .return)

/-! ### Register loads and the ALU -/

/-- R140, whole: LD Vx, NN with its encoding. -/
def Obligations.LoadImmediateSetsRegister : Prop :=
  ∀ (s : State) (x : Reg) (nn : Byte),
    encode (.ldVxNN x nn) = 0x6#4 ++ x ++ nn ∧
    ∃ t, exec (.ldVxNN x nn) s = .next t ∧ t.reg x = nn ∧ t.pc = s.pc + 2 ∧
      Frame s t (writes (.ldVxNN x nn) s)

/-- R141: ADD Vx, NN wraps modulo 256 and writes no flag; VF is a plain destination. -/
def Obligations.AddImmediateWrapsWithoutFlag : Prop :=
  ∀ (s : State) (x : Reg) (nn : Byte),
    ∃ t, exec (.addVxNN x nn) s = .next t ∧
      (t.reg x).toNat = ((s.reg x).toNat + nn.toNat) % 256 ∧
      (x ≠ vf → t.reg vf = s.reg vf) ∧ t.pc = s.pc + 2 ∧ Frame s t (writes (.addVxNN x nn) s)

/-- R143 to R146 by decisions D3 (the move) and D7 (VF only as destination): LD, OR, AND, XOR Vx, Vy. -/
def Obligations.MoveAndLogicSetOnlyTheirRegister : Prop :=
  ∀ (s : State) (x y : Reg),
    (∃ t, exec (.ldVxVy x y) s = .next t ∧ t.reg x = s.reg y ∧ t.pc = s.pc + 2 ∧
      Frame s t (writes (.ldVxVy x y) s)) ∧
    (∃ t, exec (.orVxVy x y) s = .next t ∧ t.reg x = s.reg x ||| s.reg y ∧ t.pc = s.pc + 2 ∧
      Frame s t (writes (.orVxVy x y) s)) ∧
    (∃ t, exec (.andVxVy x y) s = .next t ∧ t.reg x = s.reg x &&& s.reg y ∧ t.pc = s.pc + 2 ∧
      Frame s t (writes (.andVxVy x y) s)) ∧
    (∃ t, exec (.xorVxVy x y) s = .next t ∧ t.reg x = s.reg x ^^^ s.reg y ∧ t.pc = s.pc + 2 ∧
      Frame s t (writes (.xorVxVy x y) s))

/-- R147 for X ≠ F: ADD Vx, Vy and its carry. With Y = F the operand is VF's value before the instruction by decision D6
(R142, log entry 11). The form X = F rests on decision D6 too and is stated in `FlagOverwritesResultInVF`. -/
def Obligations.AddSetsCarry : Prop :=
  ∀ (s : State) (x y : Reg), x ≠ vf →
    ∃ t, exec (.addVxVy x y) s = .next t ∧
      (t.reg x).toNat = ((s.reg x).toNat + (s.reg y).toNat) % 256 ∧
      t.reg vf = (if 255 < (s.reg x).toNat + (s.reg y).toNat then 1 else 0) ∧
      t.pc = s.pc + 2 ∧ Frame s t (writes (.addVxVy x y) s)

/-- R148 for X ≠ F: SUB Vx, Vy and its no-borrow flag. With Y = F the operand is VF's value before the instruction by
decision D6 (R142, log entry 11). The form X = F rests on decision D6 too and is stated in
`FlagOverwritesResultInVF`. -/
def Obligations.SubSetsNoBorrow : Prop :=
  ∀ (s : State) (x y : Reg), x ≠ vf →
    ∃ t, exec (.subVxVy x y) s = .next t ∧
      ((t.reg x).toNat : Int) = ((s.reg x).toNat - (s.reg y).toNat : Int) % 256 ∧
      t.reg vf = (if (s.reg y).toNat ≤ (s.reg x).toNat then 1 else 0) ∧
      t.pc = s.pc + 2 ∧ Frame s t (writes (.subVxVy x y) s)

/-- R150 by decision D5, for X ≠ F: SUBN Vx, Vy and its no-borrow flag. With Y = F the operand is VF's value before the
instruction by decision D6 (R142; both in log entry 11). The form X = F rests on decision D6 too and is stated in
`FlagOverwritesResultInVF`. -/
def Obligations.SubnSetsNoBorrowReversed : Prop :=
  ∀ (s : State) (x y : Reg), x ≠ vf →
    ∃ t, exec (.subnVxVy x y) s = .next t ∧
      ((t.reg x).toNat : Int) = ((s.reg y).toNat - (s.reg x).toNat : Int) % 256 ∧
      t.reg vf = (if (s.reg x).toNat ≤ (s.reg y).toNat then 1 else 0) ∧
      t.pc = s.pc + 2 ∧ Frame s t (writes (.subnVxVy x y) s)

/-- R149 and R151 by decision D4 (`V[X]` is shifted, Y is not read), for X ≠ F: SHR and SHL, with the dropped bit
in VF. -/
def Obligations.ShiftsSetDroppedBit : Prop :=
  ∀ (s : State) (x y : Reg), x ≠ vf →
    (∃ t, exec (.shrVx x y) s = .next t ∧ (t.reg x).toNat = (s.reg x).toNat / 2 ∧
      t.reg vf = (if (s.reg x).toNat % 2 = 1 then 1 else 0) ∧
      t.pc = s.pc + 2 ∧ Frame s t (writes (.shrVx x y) s)) ∧
    (∃ t, exec (.shlVx x y) s = .next t ∧ (t.reg x).toNat = 2 * (s.reg x).toNat % 256 ∧
      t.reg vf = (if 128 ≤ (s.reg x).toNat then 1 else 0) ∧
      t.pc = s.pc + 2 ∧ Frame s t (writes (.shlVx x y) s))

/-- R142, decision D6: with X = F the five flag-writing operations leave the flag in VF, computed from the values
before the instruction. -/
def Obligations.FlagOverwritesResultInVF : Prop :=
  ∀ (s : State) (y : Reg),
    (∃ t, exec (.addVxVy vf y) s = .next t ∧
      t.reg vf = (if 255 < (s.reg vf).toNat + (s.reg y).toNat then 1 else 0) ∧
      t.pc = s.pc + 2 ∧ Frame s t (writes (.addVxVy vf y) s)) ∧
    (∃ t, exec (.subVxVy vf y) s = .next t ∧
      t.reg vf = (if (s.reg y).toNat ≤ (s.reg vf).toNat then 1 else 0) ∧
      t.pc = s.pc + 2 ∧ Frame s t (writes (.subVxVy vf y) s)) ∧
    (∃ t, exec (.subnVxVy vf y) s = .next t ∧
      t.reg vf = (if (s.reg vf).toNat ≤ (s.reg y).toNat then 1 else 0) ∧
      t.pc = s.pc + 2 ∧ Frame s t (writes (.subnVxVy vf y) s)) ∧
    (∃ t, exec (.shrVx vf y) s = .next t ∧
      t.reg vf = (if (s.reg vf).toNat % 2 = 1 then 1 else 0) ∧
      t.pc = s.pc + 2 ∧ Frame s t (writes (.shrVx vf y) s)) ∧
    (∃ t, exec (.shlVx vf y) s = .next t ∧
      t.reg vf = (if 128 ≤ (s.reg vf).toNat then 1 else 0) ∧
      t.pc = s.pc + 2 ∧ Frame s t (writes (.shlVx vf y) s))

/-- R152, decision D30: RND masks a free byte, whatever it is, and the next RND takes another. The byte is the model's
free value (log entry 5). -/
def Obligations.RandomByteIsMasked : Prop :=
  ∀ (s : State) (x : Reg) (nn : Byte),
    ∃ t, exec (.rndVxNN x nn) s = .next t ∧ t.reg x = Config.drawByte s.draws &&& nn ∧
      t.draws = s.draws + 1 ∧ t.pc = s.pc + 2 ∧ Frame s t (writes (.rndVxNN x nn) s)

/-! ### Control flow -/

/-- R123, R124: SE and SNE Vx, NN. -/
def Obligations.SkipsOnImmediate : Prop :=
  ∀ (s : State) (x : Reg) (nn : Byte),
    (∃ t, exec (.seVxNN x nn) s = .next t ∧
      t.pc = (if s.reg x = nn then s.pc + 4 else s.pc + 2) ∧ Frame s t (writes (.seVxNN x nn) s)) ∧
    (∃ t, exec (.sneVxNN x nn) s = .next t ∧
      t.pc = (if s.reg x ≠ nn then s.pc + 4 else s.pc + 2) ∧ Frame s t (writes (.sneVxNN x nn) s))

/-- R125, R126: SE and SNE Vx, Vy, for every value of the ignored nibble N (R74; an operand by log entry 13). -/
def Obligations.SkipsOnRegisters : Prop :=
  ∀ (s : State) (x y : Reg) (n : Nibble),
    (∃ t, exec (.seVxVy x y n) s = .next t ∧
      t.pc = (if s.reg x = s.reg y then s.pc + 4 else s.pc + 2) ∧
      Frame s t (writes (.seVxVy x y n) s)) ∧
    (∃ t, exec (.sneVxVy x y n) s = .next t ∧
      t.pc = (if s.reg x ≠ s.reg y then s.pc + 4 else s.pc + 2) ∧
      Frame s t (writes (.sneVxVy x y n) s))

/-- R121: JP NNN. What the next fetch does with an odd or far target is in `OddOrFarTargetHaltsTheNextStep`. -/
def Obligations.JumpSetsPc : Prop :=
  ∀ (s : State) (nnn : Addr12),
    ∃ t, exec (.jp nnn) s = .next t ∧ t.pc.toNat = nnn.toNat ∧ Frame s t (writes (.jp nnn) s)

/-- R127: JP V0, NNN adds `V0` without reduction. What the next fetch does with an odd or far target is in
`OddOrFarTargetHaltsTheNextStep`. -/
def Obligations.JumpWithOffsetAddsV0 : Prop :=
  ∀ (s : State) (nnn : Addr12),
    ∃ t, exec (.jpV0 nnn) s = .next t ∧ t.pc.toNat = nnn.toNat + (s.reg 0).toNat ∧
      Frame s t (writes (.jpV0 nnn) s)

/-- R102 with R121, R127 and conflict C6 (the odd case is decision D16): a jump to a target of 4095 or more, or to an
odd one, halts at the next Step. -/
def Obligations.OddOrFarTargetHaltsTheNextStep : Prop :=
  ∀ (s : State) (i : Instr) (target : Nat), s.halt = none → s.wait = none →
    ((∃ nnn, i = .jp nnn ∧ target = nnn.toNat) ∨
      ∃ nnn, i = .jpV0 nnn ∧ target = nnn.toNat + (s.reg 0).toNat) →
    ∃ t, exec i s = .next t ∧
      (4095 ≤ target → deliver .step t = .next { t with halt := some (.pcOutOfRange t.pc) }) ∧
      (target < 4095 → target % 2 = 1 →
        deliver .step t = .next { t with halt := some (.pcMisaligned t.pc) })

/-- R120: RET pops the top of the stack into `PC`; with an empty stack it raises StackFault. -/
def Obligations.ReturnPopsIntoPc : Prop :=
  (∀ (s : State) (a : Word), s.sp ≠ 0 → s.stackEntry (s.sp - 1) = some a →
    ∃ t, exec .ret s = .next t ∧ t.pc = a ∧ t.sp = s.sp - 1 ∧ t.stack = s.stack ∧
      Frame s t (writes .ret s)) ∧
  ∀ s : State, s.sp = 0 → exec .ret s = .next { s with halt := some (.stackFault 0 .return) }

/-- R122 with decision D21 (conflict C4): CALL pushes `PC + 2` and jumps; every other stack entry stays. -/
def Obligations.CallPushesReturnAddress : Prop :=
  ∀ (s : State) (nnn : Addr12), s.sp ≠ s.stackCap → s.sp < s.stack.length →
    ∃ t, exec (.call nnn) s = .next t ∧ t.pc.toNat = nnn.toNat ∧ t.sp = s.sp + 1 ∧
      t.stackEntry s.sp = some (s.pc + 2) ∧ (∀ k, k ≠ s.sp → t.stackEntry k = s.stackEntry k) ∧
      Frame s t (writes (.call nnn) s)

/-- R233: CALL with a full stack and RET with an empty one raise StackFault, carrying the stack pointer and the
operation; the stack is unchanged. -/
def Obligations.StackFaultOnOverflowAndUnderflow : Prop :=
  (∀ (s : State) (nnn : Addr12), s.sp = s.stackCap →
    exec (.call nnn) s = .next { s with halt := some (.stackFault s.stackCap .call) }) ∧
  ∀ s : State, s.sp = 0 → exec .ret s = .next { s with halt := some (.stackFault 0 .return) }

/-- R129 (derived in the spec; decision D21): CALL NNN and, at NNN, RET leave `PC` after the CALL and `SP` as before it. -/
def Obligations.CallThenReturnRoundTrip : Prop :=
  ∀ (s : State) (nnn : Addr12), s.inbox = [] → Inv s → Ready s → s.sp < s.stackCap →
    decode (fetchWord s) = .instr (.call nnn) → nnn.toNat % 2 = 0 → nnn.toNat < 4095 →
    decodeBytes (Memory.read s.mem nnn.toNat) (Memory.read s.mem (nnn.toNat + 1)) = .instr .ret →
    ∃ t u, step s = .next t ∧ step t = .next u ∧ t.pc.toNat = nnn.toNat ∧
      u.pc = s.pc + 2 ∧ u.sp = s.sp ∧ (∀ k, k ≠ s.sp → u.stackEntry k = s.stackEntry k) ∧
      Frame s u fun p => p = .pc ∨ p = .stack

/-- The model's choice, log entry 9: the only fault, and exactly where CALL and RET would use a stack entry that the
array does not have. -/
def Obligations.FaultExactlyOnMissingStackEntry : Prop :=
  ∀ (i : Instr) (s : State) (f : Fault), exec i s = .fault f ↔
    f = .noStackEntry ∧
      ((i = .ret ∧ s.sp ≠ 0 ∧ s.stack.length ≤ s.sp - 1) ∨
        ∃ nnn, i = .call nnn ∧ s.sp ≠ s.stackCap ∧ s.stack.length ≤ s.sp)

/-! ### Display -/

/-- R170, whole: CLS with its encoding. -/
def Obligations.ClearScreenTurnsEveryCellOff : Prop :=
  encode .cls = 0x00E0 ∧
  ∀ s : State, ∃ t, exec .cls s = .next t ∧ (∀ x y, t.cell x y = false) ∧ t.reg vf = s.reg vf ∧
    t.pc = s.pc + 2 ∧ Frame s t (writes .cls s)

/-- R171, R173, R174, with the bit order of decision D11, the coordinates of decision D12 and the display axes of
decision D13: DRW XORs the wrapped sprite onto the display, and VF says whether a cell went from on to off. -/
def Obligations.DrawXorsTheWrappedSprite : Prop :=
  ∀ (s : State) (x y : Reg) (n : Nibble), (n.toNat = 0 ∨ s.i.toNat + n.toNat ≤ 4096) →
    ∃ t, exec (.drw x y n) s = .next t ∧
      (∀ c r, t.cell c r = (s.cell c r ^^ spriteBit s x y n c r)) ∧
      ((∃ c r, s.cell c r = true ∧ spriteBit s x y n c r = true) → t.reg vf = 1) ∧
      ((∀ c r, s.cell c r = true → spriteBit s x y n c r = false) → t.reg vf = 0) ∧
      t.pc = s.pc + 2 ∧ Frame s t (writes (.drw x y n) s)

/-- R171, R210 by decision D17: DRW raises when a sprite byte lies at 4096 or above, carrying the smallest such
address. -/
def Obligations.DrawOutOfMemoryHalts : Prop :=
  ∀ (s : State) (x y : Reg) (n : Nibble), n.toNat ≠ 0 → 4096 < s.i.toNat + n.toNat →
    exec (.drw x y n) s = .next { s with halt := some (.memOutOfRange s.pc (max s.i.toNat 4096)) }

/-- R176 (decisions D11, D12): drawing the same sprite twice restores every cell, and VF reports the collisions of
both draws, for X ≠ F and Y ≠ F. The second draw collides where the first turned a cell on, that is where a 1 bit met
a cell that was off. R176's own inference, "VF = 1 exactly when the sprite has at least one 1 bit", is stated where
R171 gives it: when every cell under a 1 bit was off before the first draw (log entry 12). -/
def Obligations.DrawingTwiceRestoresTheDisplay : Prop :=
  ∀ (s : State) (x y : Reg) (n : Nibble), x ≠ vf → y ≠ vf →
    (n.toNat = 0 ∨ s.i.toNat + n.toNat ≤ 4096) →
    ∃ t u, exec (.drw x y n) s = .next t ∧ exec (.drw x y n) t = .next u ∧
      (∀ c r, u.cell c r = s.cell c r) ∧
      (t.reg vf = 1 ↔ ∃ c r, s.cell c r = true ∧ spriteBit s x y n c r = true) ∧
      (u.reg vf = 1 ↔ ∃ c r, s.cell c r = false ∧ spriteBit s x y n c r = true) ∧
      ((∀ c r, spriteBit s x y n c r = true → s.cell c r = false) →
        (u.reg vf = 1 ↔ ∃ k, k < n.toNat ∧ Memory.read s.mem (s.i.toNat + k) ≠ 0)) ∧
      (t.reg vf = 0 ∨ t.reg vf = 1) ∧ (u.reg vf = 0 ∨ u.reg vf = 1)

/-! ### Keys and timers -/

/-- R190, R191, for a key number of at most 15: SKP and SKNP. Above 15 they raise by decision D19, stated in
`KeyNumberAboveFifteenHalts`. -/
def Obligations.SkipsOnKey : Prop :=
  ∀ (s : State) (x : Reg) (k : Nibble), (s.reg x).toNat = k.toNat →
    (∃ t, exec (.skp x) s = .next t ∧
      t.pc = (if s.key k = true then s.pc + 4 else s.pc + 2) ∧ Frame s t (writes (.skp x) s)) ∧
    (∃ t, exec (.sknp x) s = .next t ∧
      t.pc = (if s.key k = false then s.pc + 4 else s.pc + 2) ∧ Frame s t (writes (.sknp x) s))

/-- R190, R191 by decision D19: a key number above 15 raises KeyIndexOutOfRange. -/
def Obligations.KeyNumberAboveFifteenHalts : Prop :=
  ∀ (s : State) (x : Reg), 15 < (s.reg x).toNat →
    exec (.skp x) s = .next { s with halt := some (.keyIndexOutOfRange s.pc (s.reg x)) } ∧
    exec (.sknp x) s = .next { s with halt := some (.keyIndexOutOfRange s.pc (s.reg x)) }

/-- R192, R194, R195: LD Vx, DT and LD DT, Vx and LD ST, Vx. -/
def Obligations.TimerTransfersCopy : Prop :=
  ∀ (s : State) (x : Reg),
    (∃ t, exec (.ldVxDT x) s = .next t ∧ t.reg x = s.dt ∧ t.pc = s.pc + 2 ∧
      Frame s t (writes (.ldVxDT x) s)) ∧
    (∃ t, exec (.ldDTVx x) s = .next t ∧ t.dt = s.reg x ∧ t.pc = s.pc + 2 ∧
      Frame s t (writes (.ldDTVx x) s)) ∧
    (∃ t, exec (.ldSTVx x) s = .next t ∧ t.st = s.reg x ∧ t.pc = s.pc + 2 ∧
      Frame s t (writes (.ldSTVx x) s))

/-- R193 (`PC` by decision D22): LD Vx, K sets the wait marker and nothing else: `PC` stays, and a key already held does
not end the wait.
How the wait resolves is in `KeyDownResolvesTheWaitOnce`. -/
def Obligations.WaitForKeySetsTheMarker : Prop :=
  ∀ (s : State) (x : Reg), ∃ t, exec (.ldVxK x) s = .next t ∧ t.wait = some x ∧ t.pc = s.pc ∧
    Frame s t (writes (.ldVxK x) s)

/-! ### Index register and memory -/

/-- R211, R213: LD I, NNN and LD F, Vx, for every value of `V[X]`. -/
def Obligations.IndexLoads : Prop :=
  ∀ (s : State),
    (∀ nnn : Addr12, ∃ t, exec (.ldI nnn) s = .next t ∧ t.i.toNat = nnn.toNat ∧ t.pc = s.pc + 2 ∧
      Frame s t (writes (.ldI nnn) s)) ∧
    (∀ x : Reg, ∃ t, exec (.ldFVx x) s = .next t ∧ t.i.toNat = 5 * (s.reg x).toNat ∧
      t.pc = s.pc + 2 ∧ Frame s t (writes (.ldFVx x) s))

/-- R212, decision D9: ADD I, Vx wraps at 16 bits and does not write VF. -/
def Obligations.AddToIndexWrapsWithoutFlag : Prop :=
  ∀ (s : State) (x : Reg), ∃ t, exec (.addIVx x) s = .next t ∧
    t.i.toNat = (s.i.toNat + (s.reg x).toNat) % 65536 ∧ t.reg vf = s.reg vf ∧ t.pc = s.pc + 2 ∧
    Frame s t (writes (.addIVx x) s)

/-- R214, where its three addresses are writable: LD B, Vx stores the decimal digits, hundreds lowest. Its errors rest
on decisions D17 and D18 and are in `MemoryAccessErrors`. -/
def Obligations.StoreBcdWritesTheDigits : Prop :=
  ∀ (s : State) (x : Reg), Memory.wf s.mem → 0x200 ≤ s.i.toNat → s.i.toNat + 3 ≤ 4096 →
    ∃ t, exec (.ldBVx x) s = .next t ∧
      (Memory.read t.mem s.i.toNat).toNat = (s.reg x).toNat / 100 ∧
      (Memory.read t.mem (s.i.toNat + 1)).toNat = (s.reg x).toNat / 10 % 10 ∧
      (Memory.read t.mem (s.i.toNat + 2)).toNat = (s.reg x).toNat % 10 ∧
      t.pc = s.pc + 2 ∧ Frame s t (writes (.ldBVx x) s)

/-- R215, `I` unchanged by decision D8, where every address is writable: LD [I], Vx stores `V0`..`VX`. -/
def Obligations.StoreRegistersWritesV0ToVx : Prop :=
  ∀ (s : State) (x : Reg), Memory.wf s.mem → 0x200 ≤ s.i.toNat → s.i.toNat + x.toNat < 4096 →
    ∃ t, exec (.ldMemVx x) s = .next t ∧
      (∀ r : Reg, r.toNat ≤ x.toNat → Memory.read t.mem (s.i.toNat + r.toNat) = s.reg r) ∧
      t.pc = s.pc + 2 ∧ Frame s t (writes (.ldMemVx x) s)

/-- R216, `I` unchanged by decision D8, where every address is in memory: LD Vx, [I] loads `V0`..`VX`. -/
def Obligations.LoadRegistersReadsV0ToVx : Prop :=
  ∀ (s : State) (x : Reg), s.i.toNat + x.toNat < 4096 →
    ∃ t, exec (.ldVxMem x) s = .next t ∧
      (∀ r : Reg, r.toNat ≤ x.toNat → t.reg r = Memory.read s.mem (s.i.toNat + r.toNat)) ∧
      t.pc = s.pc + 2 ∧ Frame s t (writes (.ldVxMem x) s)

/-- R210 by decisions D17 and D18: the errors of LD B, Vx, LD [I], Vx and LD Vx, [I], each carrying the smallest
address that has the error. -/
def Obligations.MemoryAccessErrors : Prop :=
  ∀ (s : State) (x : Reg),
    (4096 < s.i.toNat + 3 →
      exec (.ldBVx x) s = .next { s with halt := some (.memOutOfRange s.pc (max s.i.toNat 4096)) }) ∧
    (s.i.toNat < 0x200 →
      exec (.ldBVx x) s = .next { s with halt := some (.reservedWrite s.pc s.i.toNat) }) ∧
    (4096 ≤ s.i.toNat + x.toNat →
      exec (.ldMemVx x) s = .next { s with halt := some (.memOutOfRange s.pc (max s.i.toNat 4096)) }) ∧
    (s.i.toNat < 0x200 →
      exec (.ldMemVx x) s = .next { s with halt := some (.reservedWrite s.pc s.i.toNat) }) ∧
    (4096 ≤ s.i.toNat + x.toNat →
      exec (.ldVxMem x) s = .next { s with halt := some (.memOutOfRange s.pc (max s.i.toNat 4096)) })

/-! ### Whole-machine rules -/

/-- The invariant holds at creation with the default parameters (R35; the values of decisions D14, D15). -/
def Obligations.InvHoldsAtReset : Prop := Inv State.reset

/-- Every step, whatever event it delivers, keeps the invariant: canonical memory, `SP` in 0..`STACK_CAP`, even return
addresses of at most 4096, `PC` at most 0x10FE, a waiting machine at a fetchable `PC` (R25, R26, R105, R120, R244). -/
def Obligations.EveryStepKeepsInv : Prop :=
  ∀ s t : State, Inv s → step s = .next t → Inv t

/-- In a state that meets the invariant every step answers a next state: no run from such a state stops. -/
def Obligations.InvStateAlwaysSteps : Prop :=
  ∀ s : State, Inv s → ∃ t, step s = .next t

/-- R54 by decision D18: no step, whatever event it delivers, changes a byte below 0x200, the font among them. -/
def Obligations.ReservedBytesNeverChange : Prop :=
  ∀ s t : State, step s = .next t → ∀ a, a < 0x200 → Memory.read t.mem a = Memory.read s.mem a

/-- R36 (derived in the spec): an instruction that does not raise writes only the parts its rule names. -/
def Obligations.InstructionsWriteOnlyTheirParts : Prop :=
  ∀ (i : Instr) (s t : State), exec i s = .next t →
    (∃ e, t = { s with halt := some e }) ∨ Frame s t (writes i s)

/-- R27, "No instruction reads ST": but for LD ST, Vx, which writes it, an instruction does the same whatever ST
holds, and carries ST through. -/
def Obligations.NoInstructionReadsSoundTimer : Prop :=
  ∀ (i : Instr) (s : State) (b : Byte), (∀ x, i ≠ .ldSTVx x) →
    exec i { s with st := b } =
      match exec i s with
      | .next t => .next { t with st := b }
      | .fault f => .fault f
      | .refused r => .refused r

/-! ### Events -/

/-- R240: a Tick decrements each timer by one, never below zero, and changes nothing else, whether or not a key-wait is
pending; N Ticks decrement by N. When halted a Tick has no effect. -/
def Obligations.TicksDecrementTimersToZero : Prop :=
  (∀ s : State, s.halt ≠ none → deliver .tick s = .next s) ∧
  ∀ s : State, s.halt = none →
    (∃ t, deliver .tick s = .next t ∧ t.dt.toNat = s.dt.toNat - 1 ∧ t.st.toNat = s.st.toNat - 1 ∧
      Frame s t fun p => p = .dt ∨ p = .st) ∧
    ∀ n : Nat, ∃ t, deliverAll (List.replicate n .tick) s = .next t ∧
      t.dt.toNat = s.dt.toNat - n ∧ t.st.toNat = s.st.toNat - n ∧
      Frame s t fun p => p = .dt ∨ p = .st

/-- R243: a KeyUp sets the key's flag false and never affects a pending wait. When halted it has no effect. -/
def Obligations.KeyUpClearsOnlyItsFlag : Prop :=
  (∀ (s : State) (k : Nibble), s.halt ≠ none → deliver (.keyUp k) s = .next s) ∧
  ∀ (s : State) (k : Nibble), s.halt = none →
    ∃ t, deliver (.keyUp k) s = .next t ∧ t.key k = false ∧ t.wait = s.wait ∧
      Frame s t fun p => p = .key k

/-- R242 with no wait pending (a key already down by decision D29): a KeyDown sets the key's flag and nothing else. -/
def Obligations.KeyDownSetsOnlyItsFlag : Prop :=
  ∀ (s : State) (k : Nibble), s.halt = none → s.wait = none →
    ∃ t, deliver (.keyDown k) s = .next t ∧ t.key k = true ∧ Frame s t fun p => p = .key k

/-- R242, R244, R245 (`PC` by decision D22, a key already down by decision D29): the first KeyDown resolves the wait,
and a second one delivered after it only sets its flag. -/
def Obligations.KeyDownResolvesTheWaitOnce : Prop :=
  ∀ (s : State) (x : Reg) (k j : Nibble), s.halt = none → s.wait = some x →
    ∃ t u, deliver (.keyDown k) s = .next t ∧ (t.reg x).toNat = k.toNat ∧ t.wait = none ∧
      t.pc = s.pc + 2 ∧ t.key k = true ∧
      (Frame s t fun p => p = .v x ∨ p = .wait ∨ p = .pc ∨ p = .key k) ∧
      deliverAll [.keyDown k, .keyDown j] s = .next u ∧ u.key j = true ∧
      Frame t u fun p => p = .key j

/-- R249 (derived in the spec; decision D27): from an idle state every series of events, whatever its order, completes
and leaves the state idle; only the timers, each down by the number of Ticks, and the key flags change. -/
def Obligations.IdleMachineOnlyCountsDown : Prop :=
  ∀ (s : State) (es : List Event), Idle s →
    ∃ t, deliverAll es s = .next t ∧ Idle t ∧
      t.dt.toNat = s.dt.toNat - es.count .tick ∧ t.st.toNat = s.st.toNat - es.count .tick ∧
      Frame s t fun p => p = .dt ∨ p = .st ∨ ∃ k, p = .key k

/-- R249, R254 (decisions D23, D27): in every fair run from an idle state both timers reach zero and stay there, and
the machine stays idle. -/
def Obligations.FairIdleRunReachesZeroTimers : Prop :=
  ∀ (e : Nat → Event) (σ : Nat → State), Idle (σ 0) → EventRun e σ → Fair e σ →
    ∃ n, ∀ m, n ≤ m → (σ m).dt = 0 ∧ (σ m).st = 0 ∧ Idle (σ m) ∧
      Frame (σ 0) (σ m) fun p => p = .dt ∨ p = .st ∨ ∃ k, p = .key k

/-! ### Creation -/

/-- R270, R271 with R35 (the zeros are decisions D14 and D15, the odd length D28): creation with legal parameters and
an image that fits puts the font at 0, the image at 0x200 and zeros elsewhere, in a state that meets the invariant;
an image that does not fit creates no machine; the default font with an empty image gives the reset state. -/
def Obligations.CreationLoadsFontAndImage : Prop :=
  (∀ (p : Params) (image : List Byte), p.wellFormed = true → image.length ≤ 3584 →
    ∃ s, create p image = .created s ∧
      (∀ a, a < 80 → Memory.read s.mem a = p.font.getD a 0) ∧
      (∀ k, k < image.length → Memory.read s.mem (0x200 + k) = image.getD k 0) ∧
      (∀ a, (80 ≤ a ∧ a < 0x200) ∨ (0x200 + image.length ≤ a ∧ a < 4096) → Memory.read s.mem a = 0) ∧
      (∀ x, s.reg x = 0) ∧ s.i = 0 ∧ s.pc.toNat = 0x200 ∧ s.sp = 0 ∧ s.stackCap = p.stackCap ∧
      (∀ k, k < p.stackCap → s.stackEntry k = some 0) ∧ s.dt = 0 ∧ s.st = 0 ∧
      (∀ x y, s.cell x y = false) ∧ (∀ k, s.key k = false) ∧ s.wait = none ∧ s.halt = none ∧ Inv s) ∧
  (∀ (p : Params) (image : List Byte), p.wellFormed = true → 3584 < image.length →
    create p image = .notCreated .imageTooLong) ∧
  create defaultParams [] = .created State.reset
end

