-- ==== Sys2Proof/Laws/Decode.lean ====
section
/-! SUPPORT. Words as numbers, and the fields of a word written as nibbles. -/

namespace Sys2Proof

/-- Concatenation as a number: the high part counts in units of the low part's range (R10). -/
theorem toNat_concat {m n : Nat} (a : BitVec m) (b : BitVec n) :
    (a ++ b).toNat = a.toNat * 2 ^ n + b.toNat := by
  rw [BitVec.toNat_append, ← Nat.shiftLeft_add_eq_or_of_lt b.isLt, Nat.shiftLeft_eq]

/-- A word written as its four nibbles, most significant first (R72). -/
theorem toNat_nibbles (c x y n : Nibble) :
    (c ++ x ++ y ++ n).toNat = ((c.toNat * 16 + x.toNat) * 16 + y.toNat) * 16 + n.toNat := by
  simp only [toNat_concat]; rfl

theorem toNat_field (w : Word) (start len : Nat) :
    (w.extractLsb' start len).toNat = w.toNat / 2 ^ start % 2 ^ len := by
  rw [BitVec.extractLsb'_toNat, Nat.shiftRight_eq_div_pow]

/-- The fields of a word written as its four nibbles (R72). -/
theorem fieldsOf_nibbles (c x y n : Nibble) :
    fieldsOf (c ++ x ++ y ++ n) = ⟨c, x ++ y ++ n, x, y, n, y ++ n⟩ := by
  have hc := c.isLt
  have hx := x.isLt
  have hy := y.isLt
  have hn := n.isLt
  have hw := toNat_nibbles c x y n
  simp only [fieldsOf, Fields.mk.injEq]
  refine ⟨?_, ?_, ?_, ?_, ?_, ?_⟩ <;> apply BitVec.eq_of_toNat_eq <;> rw [toNat_field] <;>
    simp only [hw, toNat_concat] <;> omega

/-- A word is the concatenation of its four nibbles (R72). -/
theorem nibbles_fieldsOf (w : Word) :
    (fieldsOf w).c ++ (fieldsOf w).x ++ (fieldsOf w).y ++ (fieldsOf w).n = w := by
  have hw := w.isLt
  apply BitVec.eq_of_toNat_eq
  simp only [fieldsOf, toNat_nibbles, toNat_field]
  omega

/-- The other fields are made of the nibbles (R72: "NN = Y ‖ N and NNN = X ‖ Y ‖ N"). -/
theorem fieldsOf_nn (w : Word) : (fieldsOf w).nn = (fieldsOf w).y ++ (fieldsOf w).n := by
  rw [← nibbles_fieldsOf w, fieldsOf_nibbles]

theorem fieldsOf_nnn (w : Word) :
    (fieldsOf w).nnn = (fieldsOf w).x ++ (fieldsOf w).y ++ (fieldsOf w).n := by
  rw [← nibbles_fieldsOf w, fieldsOf_nibbles]

/-- An immediate byte is two nibbles, and an address field is three (R72). -/
theorem byte_nibbles (b : Byte) : ∃ y n : Nibble, b = y ++ n :=
  ⟨b.extractLsb' 4 4, b.extractLsb' 0 4, by
    have := b.isLt
    apply BitVec.eq_of_toNat_eq
    simp only [toNat_concat, BitVec.extractLsb'_toNat, Nat.shiftRight_eq_div_pow]
    omega⟩

theorem addr_nibbles (a : Addr12) : ∃ x y n : Nibble, a = x ++ y ++ n :=
  ⟨a.extractLsb' 8 4, a.extractLsb' 4 4, a.extractLsb' 0 4, by
    have := a.isLt
    apply BitVec.eq_of_toNat_eq
    simp only [toNat_concat, BitVec.extractLsb'_toNat, Nat.shiftRight_eq_div_pow]
    omega⟩

theorem concat_addr (c x y n : Nibble) : (c ++ (x ++ y ++ n) : Word) = c ++ x ++ y ++ n := by
  apply BitVec.eq_of_toNat_eq
  simp only [toNat_concat]
  omega

theorem concat_byte (c x y n : Nibble) : (c ++ x ++ (y ++ n) : Word) = c ++ x ++ y ++ n := by
  apply BitVec.eq_of_toNat_eq
  simp only [toNat_concat]
  omega

/-- The two bytes of a word put together again (R57). -/
theorem wordOfBytes_bytes (w : Word) : wordOfBytes (highByte w) (lowByte w) = w := by
  have hw := w.isLt
  apply BitVec.eq_of_toNat_eq
  simp only [wordOfBytes, highByte, lowByte, toNat_concat, toNat_field]
  omega

/-- The big-endian value of two bytes (R57). -/
theorem wordOfBytes_toNat (hi lo : Byte) : (wordOfBytes hi lo).toNat = hi.toNat * 256 + lo.toNat :=
  toNat_concat hi lo

end Sys2Proof
end

