-- ==== Sys2Proof/Laws/State.lean ====
section
/-! SUPPORT. The small lemmas of the state's updates: one per field per update, and what the accessors read
after each. -/

namespace Sys2Proof.Machine

/-! ### `setReg` -/

@[simp] theorem State.setReg_i (s : State) (x : Reg) (b : Byte) : (s.setReg x b).i = s.i := rfl
@[simp] theorem State.setReg_pc (s : State) (x : Reg) (b : Byte) : (s.setReg x b).pc = s.pc := rfl
@[simp] theorem State.setReg_sp (s : State) (x : Reg) (b : Byte) : (s.setReg x b).sp = s.sp := rfl
@[simp] theorem State.setReg_stack (s : State) (x : Reg) (b : Byte) : (s.setReg x b).stack = s.stack := rfl
@[simp] theorem State.setReg_stackCap (s : State) (x : Reg) (b : Byte) : (s.setReg x b).stackCap = s.stackCap := rfl
@[simp] theorem State.setReg_dt (s : State) (x : Reg) (b : Byte) : (s.setReg x b).dt = s.dt := rfl
@[simp] theorem State.setReg_st (s : State) (x : Reg) (b : Byte) : (s.setReg x b).st = s.st := rfl
@[simp] theorem State.setReg_display (s : State) (x : Reg) (b : Byte) : (s.setReg x b).display = s.display := rfl
@[simp] theorem State.setReg_keys (s : State) (x : Reg) (b : Byte) : (s.setReg x b).keys = s.keys := rfl
@[simp] theorem State.setReg_wait (s : State) (x : Reg) (b : Byte) : (s.setReg x b).wait = s.wait := rfl
@[simp] theorem State.setReg_halt (s : State) (x : Reg) (b : Byte) : (s.setReg x b).halt = s.halt := rfl
@[simp] theorem State.setReg_mem (s : State) (x : Reg) (b : Byte) : (s.setReg x b).mem = s.mem := rfl
@[simp] theorem State.setReg_draws (s : State) (x : Reg) (b : Byte) : (s.setReg x b).draws = s.draws := rfl
@[simp] theorem State.setReg_inbox (s : State) (x : Reg) (b : Byte) : (s.setReg x b).inbox = s.inbox := rfl

/-! ### `setKey` -/

@[simp] theorem State.setKey_v (s : State) (k : Nibble) (b : Bool) : (s.setKey k b).v = s.v := rfl
@[simp] theorem State.setKey_i (s : State) (k : Nibble) (b : Bool) : (s.setKey k b).i = s.i := rfl
@[simp] theorem State.setKey_pc (s : State) (k : Nibble) (b : Bool) : (s.setKey k b).pc = s.pc := rfl
@[simp] theorem State.setKey_sp (s : State) (k : Nibble) (b : Bool) : (s.setKey k b).sp = s.sp := rfl
@[simp] theorem State.setKey_stack (s : State) (k : Nibble) (b : Bool) : (s.setKey k b).stack = s.stack := rfl
@[simp] theorem State.setKey_stackCap (s : State) (k : Nibble) (b : Bool) : (s.setKey k b).stackCap = s.stackCap := rfl
@[simp] theorem State.setKey_dt (s : State) (k : Nibble) (b : Bool) : (s.setKey k b).dt = s.dt := rfl
@[simp] theorem State.setKey_st (s : State) (k : Nibble) (b : Bool) : (s.setKey k b).st = s.st := rfl
@[simp] theorem State.setKey_display (s : State) (k : Nibble) (b : Bool) : (s.setKey k b).display = s.display := rfl
@[simp] theorem State.setKey_wait (s : State) (k : Nibble) (b : Bool) : (s.setKey k b).wait = s.wait := rfl
@[simp] theorem State.setKey_halt (s : State) (k : Nibble) (b : Bool) : (s.setKey k b).halt = s.halt := rfl
@[simp] theorem State.setKey_mem (s : State) (k : Nibble) (b : Bool) : (s.setKey k b).mem = s.mem := rfl
@[simp] theorem State.setKey_draws (s : State) (k : Nibble) (b : Bool) : (s.setKey k b).draws = s.draws := rfl
@[simp] theorem State.setKey_inbox (s : State) (k : Nibble) (b : Bool) : (s.setKey k b).inbox = s.inbox := rfl

/-! ### `advance` -/

@[simp] theorem State.advance_v (s : State)  : (s.advance).v = s.v := rfl
@[simp] theorem State.advance_i (s : State)  : (s.advance).i = s.i := rfl
@[simp] theorem State.advance_sp (s : State)  : (s.advance).sp = s.sp := rfl
@[simp] theorem State.advance_stack (s : State)  : (s.advance).stack = s.stack := rfl
@[simp] theorem State.advance_stackCap (s : State)  : (s.advance).stackCap = s.stackCap := rfl
@[simp] theorem State.advance_dt (s : State)  : (s.advance).dt = s.dt := rfl
@[simp] theorem State.advance_st (s : State)  : (s.advance).st = s.st := rfl
@[simp] theorem State.advance_display (s : State)  : (s.advance).display = s.display := rfl
@[simp] theorem State.advance_keys (s : State)  : (s.advance).keys = s.keys := rfl
@[simp] theorem State.advance_wait (s : State)  : (s.advance).wait = s.wait := rfl
@[simp] theorem State.advance_halt (s : State)  : (s.advance).halt = s.halt := rfl
@[simp] theorem State.advance_mem (s : State)  : (s.advance).mem = s.mem := rfl
@[simp] theorem State.advance_draws (s : State)  : (s.advance).draws = s.draws := rfl
@[simp] theorem State.advance_inbox (s : State)  : (s.advance).inbox = s.inbox := rfl

@[simp] theorem State.advance_pc (s : State) : s.advance.pc = s.pc + 2 := rfl

/-! ### `skipIf` -/

@[simp] theorem State.skipIf_v (s : State) (c : Bool) : (s.skipIf c).v = s.v := rfl
@[simp] theorem State.skipIf_i (s : State) (c : Bool) : (s.skipIf c).i = s.i := rfl
@[simp] theorem State.skipIf_sp (s : State) (c : Bool) : (s.skipIf c).sp = s.sp := rfl
@[simp] theorem State.skipIf_stack (s : State) (c : Bool) : (s.skipIf c).stack = s.stack := rfl
@[simp] theorem State.skipIf_stackCap (s : State) (c : Bool) : (s.skipIf c).stackCap = s.stackCap := rfl
@[simp] theorem State.skipIf_dt (s : State) (c : Bool) : (s.skipIf c).dt = s.dt := rfl
@[simp] theorem State.skipIf_st (s : State) (c : Bool) : (s.skipIf c).st = s.st := rfl
@[simp] theorem State.skipIf_display (s : State) (c : Bool) : (s.skipIf c).display = s.display := rfl
@[simp] theorem State.skipIf_keys (s : State) (c : Bool) : (s.skipIf c).keys = s.keys := rfl
@[simp] theorem State.skipIf_wait (s : State) (c : Bool) : (s.skipIf c).wait = s.wait := rfl
@[simp] theorem State.skipIf_halt (s : State) (c : Bool) : (s.skipIf c).halt = s.halt := rfl
@[simp] theorem State.skipIf_mem (s : State) (c : Bool) : (s.skipIf c).mem = s.mem := rfl
@[simp] theorem State.skipIf_draws (s : State) (c : Bool) : (s.skipIf c).draws = s.draws := rfl
@[simp] theorem State.skipIf_inbox (s : State) (c : Bool) : (s.skipIf c).inbox = s.inbox := rfl

@[simp] theorem State.skipIf_pc (s : State) (c : Bool) :
    (s.skipIf c).pc = if c then s.pc + 4 else s.pc + 2 := rfl

/-! ### `setResultAndFlag` -/

@[simp] theorem State.setResultAndFlag_i (s : State) (x : Reg) (b : Byte) (c : Bool) : (s.setResultAndFlag x b c).i = s.i := rfl
@[simp] theorem State.setResultAndFlag_pc (s : State) (x : Reg) (b : Byte) (c : Bool) : (s.setResultAndFlag x b c).pc = s.pc := rfl
@[simp] theorem State.setResultAndFlag_sp (s : State) (x : Reg) (b : Byte) (c : Bool) : (s.setResultAndFlag x b c).sp = s.sp := rfl
@[simp] theorem State.setResultAndFlag_stack (s : State) (x : Reg) (b : Byte) (c : Bool) : (s.setResultAndFlag x b c).stack = s.stack := rfl
@[simp] theorem State.setResultAndFlag_stackCap (s : State) (x : Reg) (b : Byte) (c : Bool) : (s.setResultAndFlag x b c).stackCap = s.stackCap := rfl
@[simp] theorem State.setResultAndFlag_dt (s : State) (x : Reg) (b : Byte) (c : Bool) : (s.setResultAndFlag x b c).dt = s.dt := rfl
@[simp] theorem State.setResultAndFlag_st (s : State) (x : Reg) (b : Byte) (c : Bool) : (s.setResultAndFlag x b c).st = s.st := rfl
@[simp] theorem State.setResultAndFlag_display (s : State) (x : Reg) (b : Byte) (c : Bool) : (s.setResultAndFlag x b c).display = s.display := rfl
@[simp] theorem State.setResultAndFlag_keys (s : State) (x : Reg) (b : Byte) (c : Bool) : (s.setResultAndFlag x b c).keys = s.keys := rfl
@[simp] theorem State.setResultAndFlag_wait (s : State) (x : Reg) (b : Byte) (c : Bool) : (s.setResultAndFlag x b c).wait = s.wait := rfl
@[simp] theorem State.setResultAndFlag_halt (s : State) (x : Reg) (b : Byte) (c : Bool) : (s.setResultAndFlag x b c).halt = s.halt := rfl
@[simp] theorem State.setResultAndFlag_mem (s : State) (x : Reg) (b : Byte) (c : Bool) : (s.setResultAndFlag x b c).mem = s.mem := rfl
@[simp] theorem State.setResultAndFlag_draws (s : State) (x : Reg) (b : Byte) (c : Bool) : (s.setResultAndFlag x b c).draws = s.draws := rfl
@[simp] theorem State.setResultAndFlag_inbox (s : State) (x : Reg) (b : Byte) (c : Bool) : (s.setResultAndFlag x b c).inbox = s.inbox := rfl

/-! ### `setRegsFrom` -/

@[simp] theorem State.setRegsFrom_i (s : State) (k : Nat) (bs : List Byte) :
    (s.setRegsFrom k bs).i = s.i := by
  induction bs generalizing s k with
  | nil => rfl
  | cons b bs ih => exact ih _ _
@[simp] theorem State.setRegsFrom_pc (s : State) (k : Nat) (bs : List Byte) :
    (s.setRegsFrom k bs).pc = s.pc := by
  induction bs generalizing s k with
  | nil => rfl
  | cons b bs ih => exact ih _ _
@[simp] theorem State.setRegsFrom_sp (s : State) (k : Nat) (bs : List Byte) :
    (s.setRegsFrom k bs).sp = s.sp := by
  induction bs generalizing s k with
  | nil => rfl
  | cons b bs ih => exact ih _ _
@[simp] theorem State.setRegsFrom_stack (s : State) (k : Nat) (bs : List Byte) :
    (s.setRegsFrom k bs).stack = s.stack := by
  induction bs generalizing s k with
  | nil => rfl
  | cons b bs ih => exact ih _ _
@[simp] theorem State.setRegsFrom_stackCap (s : State) (k : Nat) (bs : List Byte) :
    (s.setRegsFrom k bs).stackCap = s.stackCap := by
  induction bs generalizing s k with
  | nil => rfl
  | cons b bs ih => exact ih _ _
@[simp] theorem State.setRegsFrom_dt (s : State) (k : Nat) (bs : List Byte) :
    (s.setRegsFrom k bs).dt = s.dt := by
  induction bs generalizing s k with
  | nil => rfl
  | cons b bs ih => exact ih _ _
@[simp] theorem State.setRegsFrom_st (s : State) (k : Nat) (bs : List Byte) :
    (s.setRegsFrom k bs).st = s.st := by
  induction bs generalizing s k with
  | nil => rfl
  | cons b bs ih => exact ih _ _
@[simp] theorem State.setRegsFrom_display (s : State) (k : Nat) (bs : List Byte) :
    (s.setRegsFrom k bs).display = s.display := by
  induction bs generalizing s k with
  | nil => rfl
  | cons b bs ih => exact ih _ _
@[simp] theorem State.setRegsFrom_keys (s : State) (k : Nat) (bs : List Byte) :
    (s.setRegsFrom k bs).keys = s.keys := by
  induction bs generalizing s k with
  | nil => rfl
  | cons b bs ih => exact ih _ _
@[simp] theorem State.setRegsFrom_wait (s : State) (k : Nat) (bs : List Byte) :
    (s.setRegsFrom k bs).wait = s.wait := by
  induction bs generalizing s k with
  | nil => rfl
  | cons b bs ih => exact ih _ _
@[simp] theorem State.setRegsFrom_halt (s : State) (k : Nat) (bs : List Byte) :
    (s.setRegsFrom k bs).halt = s.halt := by
  induction bs generalizing s k with
  | nil => rfl
  | cons b bs ih => exact ih _ _
@[simp] theorem State.setRegsFrom_mem (s : State) (k : Nat) (bs : List Byte) :
    (s.setRegsFrom k bs).mem = s.mem := by
  induction bs generalizing s k with
  | nil => rfl
  | cons b bs ih => exact ih _ _
@[simp] theorem State.setRegsFrom_draws (s : State) (k : Nat) (bs : List Byte) :
    (s.setRegsFrom k bs).draws = s.draws := by
  induction bs generalizing s k with
  | nil => rfl
  | cons b bs ih => exact ih _ _
@[simp] theorem State.setRegsFrom_inbox (s : State) (k : Nat) (bs : List Byte) :
    (s.setRegsFrom k bs).inbox = s.inbox := by
  induction bs generalizing s k with
  | nil => rfl
  | cons b bs ih => exact ih _ _

/-! ### The accessors -/

@[simp] theorem State.reg_setReg (s : State) (x r : Reg) (b : Byte) :
    (s.setReg x b).reg r = if r = x then b else s.reg r := by
  simp only [State.reg, State.setReg, Vector.getElem_set, BitVec.toNat_inj, eq_comm]

@[simp] theorem State.reg_setKey (s : State) (k : Nibble) (b : Bool) (r : Reg) :
    (s.setKey k b).reg r = s.reg r := rfl

@[simp] theorem State.reg_advance (s : State) (r : Reg) : s.advance.reg r = s.reg r := rfl

@[simp] theorem State.reg_skipIf (s : State) (c : Bool) (r : Reg) : (s.skipIf c).reg r = s.reg r := rfl

/-- The flag stays when the destination is VF (R142). -/
@[simp] theorem State.reg_setResultAndFlag (s : State) (x r : Reg) (b : Byte) (c : Bool) :
    (s.setResultAndFlag x b c).reg r =
      if r = vf then flagByte c else if r = x then b else s.reg r := by
  simp [State.setResultAndFlag]

@[simp] theorem State.key_setKey (s : State) (k j : Nibble) (b : Bool) :
    (s.setKey k b).key j = if j = k then b else s.key j := by
  simp only [State.key, State.setKey, Vector.getElem_set, BitVec.toNat_inj, eq_comm]

@[simp] theorem State.key_setReg (s : State) (x : Reg) (b : Byte) (k : Nibble) :
    (s.setReg x b).key k = s.key k := rfl

@[simp] theorem State.key_advance (s : State) (k : Nibble) : s.advance.key k = s.key k := rfl

@[simp] theorem State.cell_setReg (s : State) (r : Reg) (b : Byte) (x : Fin 64) (y : Fin 32) :
    (s.setReg r b).cell x y = s.cell x y := rfl

@[simp] theorem State.cell_setKey (s : State) (k : Nibble) (b : Bool) (x : Fin 64) (y : Fin 32) :
    (s.setKey k b).cell x y = s.cell x y := rfl

@[simp] theorem State.cell_advance (s : State) (x : Fin 64) (y : Fin 32) :
    s.advance.cell x y = s.cell x y := rfl

@[simp] theorem State.raise_eq (s : State) (e : Error) : s.raise e = .next { s with halt := some e } := rfl

/-- Registers from number `k` on hold the bytes; the others are unchanged. -/
theorem State.reg_setRegsFrom (s : State) (k : Nat) (bs : List Byte) (r : Reg) (h : k + bs.length ≤ 16) :
    (s.setRegsFrom k bs).reg r =
      if k ≤ r.toNat then bs.getD (r.toNat - k) (s.reg r) else s.reg r := by
  induction bs generalizing s k with
  | nil => simp [State.setRegsFrom]
  | cons b bs ih =>
    simp only [List.length_cons] at h
    rw [State.setRegsFrom, ih _ _ (by omega), State.reg_setReg]
    have key : r = BitVec.ofNat 4 k ↔ r.toNat = k := by
      rw [← BitVec.toNat_inj, BitVec.toNat_ofNat, Nat.mod_eq_of_lt (by omega)]
    rcases Nat.lt_trichotomy r.toNat k with hlt | heq | hgt
    · simp only [key, if_neg (show ¬ k + 1 ≤ r.toNat by omega), if_neg (show ¬ k ≤ r.toNat by omega),
        if_neg (show ¬ r.toNat = k by omega)]
    · simp [key, heq]
    · obtain ⟨d, hd⟩ : ∃ d, r.toNat - k = d + 1 := ⟨r.toNat - k - 1, by omega⟩
      simp only [key, if_pos (show k + 1 ≤ r.toNat by omega), if_pos (show k ≤ r.toNat by omega),
        if_neg (show ¬ r.toNat = k by omega), hd, List.getD_cons_succ, show r.toNat - (k + 1) = d by omega]

end Sys2Proof.Machine
end

