-- ==== Sys2Proof/Laws/Display.lean ====
section
/-! SUPPORT. What drawing does to a display buffer, cell by cell (R171 to R175): a sprite's byte and then the whole
sprite are XORed onto the cells at once, and the flag says whether some cell was on where the sprite has a 1. -/

namespace Sys2Proof.Machine

/-- How many columns right of `x0` a column is, counted around the edge (R173). -/
def columnsFrom (x0 : Nat) (x : Fin 64) : Nat := (x.val + 64 - x0 % 64) % 64

/-- How many rows below `y0` a row is, counted around the edge (R173). -/
def rowsFrom (y0 : Nat) (y : Fin 32) : Nat := (y.val + 32 - y0 % 32) % 32

/-- The bit that the first `k` columns of a row byte put on column `x`. -/
def byteBit (x0 : Nat) (b : Byte) (k : Nat) (x : Fin 64) : Bool :=
  decide (columnsFrom x0 x < k) && b.getLsbD (7 - columnsFrom x0 x)

/-- The bit that the bytes of a sprite, from row `y0 + r` on, put on a cell. -/
def bytesBit (x0 y0 r : Nat) (bs : List Byte) (x : Fin 64) (y : Fin 32) : Bool :=
  decide (r ≤ rowsFrom y0 y) && decide (rowsFrom y0 y < r + bs.length) &&
    byteBit x0 (bs.getD (rowsFrom y0 y - r) 0) 8 x

theorem wrapColumn_eq_iff (x0 c : Nat) (x : Fin 64) (hc : c < 64) :
    x = wrapColumn x0 c ↔ columnsFrom x0 x = c := by
  have := x.isLt
  rw [Fin.ext_iff]
  simp only [wrapColumn, columnsFrom]
  omega

theorem wrapRow_eq_iff (y0 r : Nat) (y : Fin 32) (hr : r < 32) :
    y = wrapRow y0 r ↔ rowsFrom y0 y = r := by
  have := y.isLt
  rw [Fin.ext_iff]
  simp only [wrapRow, rowsFrom]
  omega

/-- Plotting a cell flips it and no other. -/
theorem displayCell_plotCell (d : Drawing) (x x' : Fin 64) (y y' : Fin 32) :
    displayCell (plotCell d x y).1 x' y' =
      (displayCell d.1 x' y' ^^ decide (x' = x ∧ y' = y)) := by
  simp only [displayCell, plotCell, Vector.getElem_set]
  by_cases hy : y' = y
  · subst hy
    simp only [↓reduceIte, Vector.getElem_set, and_true]
    by_cases hx : x' = x
    · subst hx; simp
    · have : ¬ x.val = x'.val := fun h => hx (Fin.ext h.symm)
      simp [hx, this]
  · have : ¬ y.val = y'.val := fun h => hy (Fin.ext h.symm)
    simp [hy, this]

theorem plotCell_flag (d : Drawing) (x : Fin 64) (y : Fin 32) :
    (plotCell d x y).2 = (d.2 || displayCell d.1 x y) := rfl

theorem byteBit_succ (x0 : Nat) (b : Byte) (k : Nat) (hk : k < 8) (x : Fin 64) :
    byteBit x0 b (k + 1) x =
      (byteBit x0 b k x ^^ (b.getLsbD (7 - k) && decide (x = wrapColumn x0 k))) := by
  simp only [byteBit, wrapColumn_eq_iff x0 k x (by omega)]
  rcases Nat.lt_trichotomy (columnsFrom x0 x) k with h | h | h
  · simp [h, Nat.ne_of_lt h, Nat.lt_succ_of_lt h]
  · simp [h]
  · simp [show ¬ columnsFrom x0 x < k + 1 by omega, show ¬ columnsFrom x0 x < k by omega,
      Nat.ne_of_gt h]

/-- The first `k` columns of a row byte are XORed onto row `y`. -/
theorem displayCell_plotByte (d : Drawing) (x0 : Nat) (y y' : Fin 32) (b : Byte) (k : Nat) (hk : k ≤ 8)
    (x' : Fin 64) :
    displayCell (plotByte d x0 y b k).1 x' y' =
      (displayCell d.1 x' y' ^^ (decide (y' = y) && byteBit x0 b k x')) := by
  induction k with
  | zero => simp [plotByte, byteBit]
  | succ k ih =>
    simp only [plotByte, byteBit_succ x0 b k (by omega)]
    split
    · next hb =>
      rw [displayCell_plotCell, ih (by omega)]
      by_cases hy : y' = y <;> simp [hy, hb]
    · next hb => simp [ih (by omega), hb]

/-- The flag after a row byte: an earlier collision, or a cell of the row that was on under a 1 bit. -/
theorem plotByte_flag (d : Drawing) (x0 : Nat) (y : Fin 32) (b : Byte) (k : Nat) (hk : k ≤ 8) :
    (plotByte d x0 y b k).2 = true ↔
      d.2 = true ∨ ∃ x, displayCell d.1 x y = true ∧ byteBit x0 b k x = true := by
  induction k with
  | zero => simp [plotByte, byteBit]
  | succ k ih =>
    have hbit : ∀ x, byteBit x0 b (k + 1) x = true ↔
        byteBit x0 b k x = true ∨ (b.getLsbD (7 - k) = true ∧ x = wrapColumn x0 k) := by
      intro x
      rw [byteBit_succ x0 b k (by omega)]
      by_cases hx : x = wrapColumn x0 k
      · have : byteBit x0 b k x = false := by
          simp [byteBit, (wrapColumn_eq_iff x0 k x (by omega)).1 hx]
        subst hx
        simp [this]
      · simp [hx]
    have hcell : displayCell (plotByte d x0 y b k).1 (wrapColumn x0 k) y =
        displayCell d.1 (wrapColumn x0 k) y := by
      rw [displayCell_plotByte d x0 y y b k (by omega)]
      simp [byteBit, (wrapColumn_eq_iff x0 k (wrapColumn x0 k) (by omega)).1 rfl]
    simp only [plotByte, hbit]
    split
    · next hb =>
      simp only [plotCell_flag, Bool.or_eq_true, ih (by omega), hcell]
      constructor
      · rintro ((h | ⟨x, h⟩) | h)
        · exact .inl h
        · exact .inr ⟨x, h.1, .inl h.2⟩
        · exact .inr ⟨_, h, .inr ⟨hb, rfl⟩⟩
      · rintro (h | ⟨x, h, h' | ⟨-, rfl⟩⟩)
        · exact .inl (.inl h)
        · exact .inl (.inr ⟨x, h, h'⟩)
        · exact .inr h
    · next hb => simp [ih (by omega), hb]

/-- The bytes' bits: the first byte's on its own row, and the rest's on theirs. -/
theorem bytesBit_cons (x0 y0 r : Nat) (b : Byte) (bs : List Byte) (x : Fin 64) (y : Fin 32)
    (hr : r + (b :: bs).length ≤ 32) :
    bytesBit x0 y0 r (b :: bs) x y =
      ((decide (y = wrapRow y0 r) && byteBit x0 b 8 x) ^^ bytesBit x0 y0 (r + 1) bs x y) := by
  simp only [List.length_cons] at hr
  simp only [bytesBit, wrapRow_eq_iff y0 r y (by omega), List.length_cons]
  rcases Nat.lt_trichotomy (rowsFrom y0 y) r with h | h | h
  · simp [show ¬ r ≤ rowsFrom y0 y by omega, show ¬ r + 1 ≤ rowsFrom y0 y by omega,
      show ¬ rowsFrom y0 y = r by omega]
  · simp [h]
  · obtain ⟨e, he⟩ : ∃ e, rowsFrom y0 y - r = e + 1 := ⟨rowsFrom y0 y - r - 1, by omega⟩
    simp [show r ≤ rowsFrom y0 y by omega, show r + 1 ≤ rowsFrom y0 y by omega,
      show ¬ rowsFrom y0 y = r by omega, he, show rowsFrom y0 y - (r + 1) = e by omega,
      show r + (bs.length + 1) = r + 1 + bs.length by omega]

/-- A sprite is XORed onto the cells at once (R175). -/
theorem displayCell_plotSprite (bs : List Byte) (d : Drawing) (x0 y0 r : Nat) (hr : r + bs.length ≤ 32)
    (x : Fin 64) (y : Fin 32) :
    displayCell (plotSprite d x0 y0 r bs).1 x y =
      (displayCell d.1 x y ^^ bytesBit x0 y0 r bs x y) := by
  induction bs generalizing d r with
  | nil =>
    rcases Nat.lt_or_ge (rowsFrom y0 y) r with h | h
    · simp [plotSprite, bytesBit, Nat.not_le.2 h]
    · simp [plotSprite, bytesBit, Nat.not_lt.2 h]
  | cons b bs ih =>
    have hr' : r + 1 + bs.length ≤ 32 := by simpa [Nat.add_assoc, Nat.add_comm 1] using hr
    rw [plotSprite, ih _ _ hr', displayCell_plotByte _ _ _ _ _ _ (Nat.le_refl 8),
      bytesBit_cons _ _ _ _ _ _ _ hr, Bool.xor_assoc]

/-- The flag after a sprite: an earlier collision, or a cell that was on under a 1 bit of it (R174). -/
theorem plotSprite_flag (bs : List Byte) (d : Drawing) (x0 y0 r : Nat) (hr : r + bs.length ≤ 32) :
    (plotSprite d x0 y0 r bs).2 = true ↔
      d.2 = true ∨ ∃ x y, displayCell d.1 x y = true ∧ bytesBit x0 y0 r bs x y = true := by
  induction bs generalizing d r with
  | nil =>
    have hbit : ∀ x y, bytesBit x0 y0 r [] x y = false := by
      intro x y
      rcases Nat.lt_or_ge (rowsFrom y0 y) r with h | h
      · simp [bytesBit, Nat.not_le.2 h]
      · simp [bytesBit, Nat.not_lt.2 h]
    simp [plotSprite, hbit]
  | cons b bs ih =>
    have hr' : r + 1 + bs.length ≤ 32 := by simpa [Nat.add_assoc, Nat.add_comm 1] using hr
    have hbit : ∀ x y, bytesBit x0 y0 r (b :: bs) x y = true ↔
        (y = wrapRow y0 r ∧ byteBit x0 b 8 x = true) ∨ bytesBit x0 y0 (r + 1) bs x y = true := by
      intro x y
      rw [bytesBit_cons _ _ _ _ _ _ _ hr]
      by_cases hy : y = wrapRow y0 r
      · have : bytesBit x0 y0 (r + 1) bs x y = false := by
          simp [bytesBit, (wrapRow_eq_iff y0 r y (by omega)).1 hy]
        simp [hy, hy ▸ this]
      · simp [hy]
    have hcell : ∀ x y, bytesBit x0 y0 (r + 1) bs x y = true →
        displayCell (plotByte d x0 (wrapRow y0 r) b 8).1 x y = displayCell d.1 x y := by
      intro x y h
      have hy : y ≠ wrapRow y0 r := by
        intro hy
        simp [bytesBit, (wrapRow_eq_iff y0 r y (by omega)).1 hy] at h
      rw [displayCell_plotByte _ _ _ _ _ _ (Nat.le_refl 8)]
      simp [hy]
    rw [plotSprite, ih _ _ hr', plotByte_flag _ _ _ _ _ (Nat.le_refl 8)]
    constructor
    · rintro ((h | ⟨x, h, h'⟩) | ⟨x, y, h, h'⟩)
      · exact .inl h
      · exact .inr ⟨x, _, h, (hbit _ _).2 (.inl ⟨rfl, h'⟩)⟩
      · exact .inr ⟨x, y, hcell x y h' ▸ h, (hbit _ _).2 (.inr h')⟩
    · rintro (h | ⟨x, y, h, h'⟩)
      · exact .inl (.inl h)
      · rcases (hbit x y).1 h' with ⟨rfl, hb⟩ | hb
        · exact .inl (.inr ⟨x, h, hb⟩)
        · exact .inr ⟨x, y, (hcell x y hb).symm ▸ h, hb⟩

end Sys2Proof.Machine
end

