-- ==== Sys2Proof/Laws/Memory.lean ====
section
/-! SUPPORT. The laws of memory: what a read gives after a write, and the canonical form kept by every
operation. -/

namespace Sys2Proof.Machine

/-- A write leaves every other address as it was, in any list. -/
theorem Memory.read_write_of_ne (m : Memory) {a b : Nat} (v : Byte) (h : b ≠ a) :
    Memory.read (Memory.write m a v) b = Memory.read m b := by
  induction m with
  | nil => simp only [Memory.write]; split <;> simp [Memory.read, h]
  | cons c m ih =>
    simp only [Memory.write]
    split_ifs <;> simp_all [Memory.read]

/-- An address below every entry of a list reads as unlisted. -/
theorem Memory.read_of_lt (m : Memory) {a : Nat} (h : ∀ c ∈ m, a < c.1) :
    Memory.read m a = Memory.unlisted a := by
  induction m with
  | nil => rfl
  | cons c m ih =>
    have hc : a ≠ c.1 := Nat.ne_of_lt (h c (by simp))
    simp only [Memory.read, if_neg hc]
    exact ih fun d hd => h d (List.mem_cons_of_mem _ hd)

/-- A read gives the value written there, in a list whose addresses rise. -/
theorem Memory.read_write_self (m : Memory) (a : Nat) (v : Byte)
    (h : m.Pairwise fun p q => p.1 < q.1) : Memory.read (Memory.write m a v) a = v := by
  induction m with
  | nil => simp only [Memory.write]; split <;> simp_all [Memory.read]
  | cons c m ih =>
    obtain ⟨hc, hm⟩ := List.pairwise_cons.1 h
    simp only [Memory.write]
    split_ifs with h1 h2 h3 h4
    · rw [Memory.read_of_lt _ (by
        intro d hd
        rcases List.mem_cons.1 hd with rfl | hd
        · exact h1
        · exact Nat.lt_trans h1 (hc d hd)), h2]
    · simp [Memory.read]
    · rw [Memory.read_of_lt _ (by intro d hd; exact h3 ▸ hc d hd), h4]
    · simp [Memory.read]
    · simp only [Memory.read, if_neg h3, ih hm]

/-- A read after a write (R64). -/
theorem Memory.read_write (m : Memory) (a b : Nat) (v : Byte) (h : Memory.wf m) :
    Memory.read (Memory.write m a v) b = if b = a then v else Memory.read m b := by
  split
  · next hb => exact hb ▸ Memory.read_write_self m a v h.1
  · next hb => exact Memory.read_write_of_ne m v hb

/-- Every entry of a written list is the new one or one of the old ones. -/
theorem Memory.mem_write {m : Memory} {a : Nat} {v : Byte} {c : Host.Cell}
    (h : c ∈ Memory.write m a v) : (c = (a, v) ∧ v ≠ Memory.unlisted a) ∨ c ∈ m := by
  induction m with
  | nil => simp only [Memory.write] at h; split at h <;> simp_all
  | cons d m ih =>
    simp only [Memory.write] at h
    split_ifs at h <;> simp_all
    · tauto
    · rcases h with h | h
      · exact .inr (.inl h)
      · have := ih h; tauto

/-- A write inside the address space keeps the canonical form. -/
theorem Memory.write_wf (m : Memory) (a : Nat) (v : Byte) (ha : a < Config.memSize) (h : Memory.wf m) :
    Memory.wf (Memory.write m a v) := by
  refine ⟨?_, fun c hc => ?_⟩
  · have hs := h.1
    clear h
    induction m with
    | nil => simp only [Memory.write]; split <;> simp
    | cons d m ih =>
      obtain ⟨hd, hm⟩ := List.pairwise_cons.1 hs
      simp only [Memory.write]
      split_ifs with h1 h2 h3 h4
      · exact hs
      · refine List.pairwise_cons.2 ⟨fun c hc => ?_, hs⟩
        rcases List.mem_cons.1 hc with rfl | hc
        · exact h1
        · exact Nat.lt_trans h1 (hd c hc)
      · exact hm
      · exact List.pairwise_cons.2 ⟨fun c hc => h3 ▸ hd c hc, hm⟩
      · refine List.pairwise_cons.2 ⟨fun c hc => ?_, ih hm⟩
        rcases Memory.mem_write hc with ⟨rfl, -⟩ | hc
        · simp only; omega
        · exact hd c hc
  · rcases Memory.mem_write hc with ⟨rfl, hv⟩ | hc
    · exact ⟨ha, hv⟩
    · exact h.2 c hc

/-- Writing a run of bytes inside the address space keeps the canonical form. -/
theorem Memory.writeAll_wf (bs : List Byte) (m : Memory) (a : Nat) (ha : a + bs.length ≤ Config.memSize)
    (h : Memory.wf m) : Memory.wf (Memory.writeAll m a bs) := by
  induction bs generalizing m a with
  | nil => exact h
  | cons b bs ih =>
    simp only [List.length_cons] at ha
    exact ih _ _ (by omega) (Memory.write_wf m a b (by omega) h)

/-- A run of bytes leaves every address outside it as it was, in any list. -/
theorem Memory.read_writeAll_of_not_mem (bs : List Byte) (m : Memory) {a b : Nat}
    (h : b < a ∨ a + bs.length ≤ b) : Memory.read (Memory.writeAll m a bs) b = Memory.read m b := by
  induction bs generalizing m a with
  | nil => rfl
  | cons c bs ih =>
    simp only [List.length_cons] at h
    rw [Memory.writeAll, ih _ (by omega), Memory.read_write_of_ne _ _ (by omega)]

/-- Inside the run, the bytes written are read. -/
theorem Memory.read_writeAll (bs : List Byte) (m : Memory) (a k : Nat)
    (ha : a + bs.length ≤ Config.memSize) (h : Memory.wf m) (hk : k < bs.length) :
    Memory.read (Memory.writeAll m a bs) (a + k) = bs[k] := by
  induction bs generalizing m a k with
  | nil => simp at hk
  | cons c bs ih =>
    simp only [List.length_cons] at ha hk
    rw [Memory.writeAll]
    cases k with
    | zero =>
      rw [Memory.read_writeAll_of_not_mem _ _ (by omega), Nat.add_zero, Memory.read_write_self _ _ _ h.1]
      rfl
    | succ k =>
      rw [show a + (k + 1) = a + 1 + k by omega,
        ih _ _ _ (by omega) (Memory.write_wf m a c (by omega) h) (by omega)]
      rfl

/-- The byte `k` of a run read. -/
@[simp] theorem Memory.length_readAll (m : Memory) (a n : Nat) : (Memory.readAll m a n).length = n := by
  simp [Memory.readAll]

theorem Memory.getD_readAll (m : Memory) (a n k : Nat) (d : Byte) (h : k < n) :
    (Memory.readAll m a n).getD k d = Memory.read m (a + k) := by
  simp [Memory.readAll, List.getD, h]

/-- The memory of reset is in canonical form. -/
theorem Memory.wf_reset : Memory.wf State.reset.mem := ⟨List.Pairwise.nil, by simp [State.reset]⟩

end Sys2Proof.Machine
end

