-- ==== Sys2Proof/Laws/Operands.lean ====
section
/-! SUPPORT. What the checks of R210 answer, and what the operand forms give as numbers. -/

namespace Sys2Proof.Machine

@[simp] theorem addrOperand_toNat (nnn : Addr12) : (addrOperand nnn).toNat = nnn.toNat := by
  have := nnn.isLt
  simp only [addrOperand, BitVec.toNat_setWidth]
  omega

@[simp] theorem fontAddress_toNat (b : Byte) : (fontAddress b).toNat = 5 * b.toNat := by
  have := b.isLt
  simp only [fontAddress, BitVec.toNat_ofNat]
  omega

@[simp] theorem length_bcdDigits (b : Byte) : (bcdDigits b).length = 3 := rfl

@[simp] theorem length_regsUpTo (s : State) (x : Reg) : (regsUpTo s x).length = x.toNat + 1 := by
  simp [regsUpTo]

theorem getElem_regsUpTo (s : State) (x : Reg) (k : Nat) (h : k < (regsUpTo s x).length) :
    (regsUpTo s x)[k] = s.reg (BitVec.ofNat 4 k) := by
  simp [regsUpTo]

/-- The first fault over a run, for a fault that every address from some point on has. -/
theorem findSome_range_eq_none {α : Type} (n : Nat) (f : Nat → Option α) :
    (List.range n).findSome? f = none ↔ ∀ k < n, f k = none := by
  simp [List.findSome?_eq_none_iff]

theorem readFault_of_lt (s : State) {a : Nat} (h : a < Config.memSize) : readFault s a = none :=
  if_neg (Nat.not_le.2 h)

theorem readFault_of_le (s : State) {a : Nat} (h : Config.memSize ≤ a) :
    readFault s a = some (.memOutOfRange s.pc a) := if_pos h

theorem writeFault_of_lt (s : State) {a : Nat} (h : a < Config.reservedEnd) :
    writeFault s a = some (.reservedWrite s.pc a) := by
  rw [writeFault, if_neg (by simp only [Config.memSize, Config.reservedEnd] at *; omega), if_pos h]

theorem writeFault_of_le (s : State) {a : Nat} (h : Config.reservedEnd ≤ a) (h' : a < Config.memSize) :
    writeFault s a = none := by
  rw [writeFault, if_neg (Nat.not_le.2 h'), if_neg (Nat.not_lt.2 h)]

/-- The reads of a run are all inside memory exactly when the check finds nothing. -/
theorem checkReads_eq_none (s : State) (n : Nat) :
    checkReads s n = none ↔ n = 0 ∨ s.i.toNat + n ≤ Config.memSize := by
  rw [checkReads, findSome_range_eq_none]
  constructor
  · intro h
    by_contra hc
    have := h (n - 1) (by omega)
    rw [readFault_of_le s (by simp only [ea, Config.memSize] at *; omega)] at this
    cases this
  · intro h k hk
    exact readFault_of_lt s (by simp only [ea, Config.memSize] at *; omega)

/-- The smallest address out of memory is reported (R210). -/
theorem checkReads_eq_some (s : State) (n : Nat) (hn : n ≠ 0) (h : Config.memSize < s.i.toNat + n) :
    checkReads s n = some (.memOutOfRange s.pc (max s.i.toNat Config.memSize)) := by
  induction n with
  | zero => exact absurd rfl hn
  | succ n ih =>
    rw [checkReads, List.range_succ, List.findSome?_append, ← checkReads]
    by_cases h' : n ≠ 0 ∧ Config.memSize < s.i.toNat + n
    · rw [ih h'.1 h'.2]
      rfl
    · rw [(checkReads_eq_none s n).2 (by omega), Option.none_or, List.findSome?_cons,
        readFault_of_le s (by simp only [ea, Config.memSize] at *; omega)]
      simp only [Option.some.injEq, Error.memOutOfRange.injEq, true_and, ea, Config.memSize] at *
      omega

/-- A check of reads answers nothing or a MemOutOfRange at the smallest address out of memory. -/
theorem checkReads_cases (s : State) (n : Nat) :
    (checkReads s n = none ∧ (n = 0 ∨ s.i.toNat + n ≤ Config.memSize)) ∨
      (checkReads s n = some (.memOutOfRange s.pc (max s.i.toNat Config.memSize)) ∧
        n ≠ 0 ∧ Config.memSize < s.i.toNat + n) := by
  by_cases h : n = 0 ∨ s.i.toNat + n ≤ Config.memSize
  · exact .inl ⟨(checkReads_eq_none s n).2 h, h⟩
  · exact .inr ⟨checkReads_eq_some s n (by omega) (by omega), by omega, by omega⟩

/-- What a check of writes answers, in the order of R210. -/
theorem checkWrites_cases (s : State) (n : Nat) (hn : n ≠ 0) :
    (checkWrites s n = none ∧ Config.reservedEnd ≤ s.i.toNat ∧ s.i.toNat + n ≤ Config.memSize) ∨
      (checkWrites s n = some (.memOutOfRange s.pc (max s.i.toNat Config.memSize)) ∧
        Config.memSize < s.i.toNat + n) ∨
      (checkWrites s n = some (.reservedWrite s.pc s.i.toNat) ∧
        s.i.toNat < Config.reservedEnd ∧ s.i.toNat + n ≤ Config.memSize) := by
  rcases checkReads_cases s n with ⟨h, h'⟩ | ⟨h, -, h'⟩
  · have hin : s.i.toNat + n ≤ Config.memSize := by omega
    by_cases hres : s.i.toNat < Config.reservedEnd
    · refine .inr (.inr ⟨?_, hres, hin⟩)
      obtain ⟨m, rfl⟩ : ∃ m, n = m + 1 := ⟨n - 1, by omega⟩
      rw [checkWrites, h]
      simp only [List.range_succ_eq_map, List.findSome?_cons, ea, Nat.add_zero, writeFault_of_lt s hres]
    · refine .inl ⟨?_, by omega, hin⟩
      simp only [checkWrites, h]
      rw [findSome_range_eq_none]
      intro k hk
      exact writeFault_of_le s (by simp only [ea]; omega) (by simp only [ea]; omega)
  · exact .inr (.inl ⟨by simp only [checkWrites, h], h'⟩)

/-- What storing at `I` answers: an error of the check, or the bytes written and the advance. -/
theorem storeAtI_cases (s : State) (bs : List Byte) (hn : bs.length ≠ 0) :
    (storeAtI s bs = .next { s with mem := Memory.writeAll s.mem s.i.toNat bs }.advance ∧
        Config.reservedEnd ≤ s.i.toNat ∧ s.i.toNat + bs.length ≤ Config.memSize) ∨
      (storeAtI s bs = s.raise (.memOutOfRange s.pc (max s.i.toNat Config.memSize)) ∧
        Config.memSize < s.i.toNat + bs.length) ∨
      (storeAtI s bs = s.raise (.reservedWrite s.pc s.i.toNat) ∧ s.i.toNat < Config.reservedEnd ∧
        s.i.toNat + bs.length ≤ Config.memSize) := by
  rcases checkWrites_cases s bs.length hn with ⟨h, h'⟩ | ⟨h, h'⟩ | ⟨h, h'⟩
  · exact .inl ⟨by simp [storeAtI, h, ea], h'⟩
  · exact .inr (.inl ⟨by simp [storeAtI, h], h'⟩)
  · exact .inr (.inr ⟨by simp [storeAtI, h], h'⟩)

/-- A skip on a key either raises, for a number above 15, or skips by the key's flag. -/
theorem skipOnKey_cases (x : Reg) (down : Bool) (s : State) :
    (skipOnKey x down s = s.raise (.keyIndexOutOfRange s.pc (s.reg x)) ∧ 0xF < (s.reg x).toNat) ∨
      (skipOnKey x down s = .next (s.skipIf (s.key ((s.reg x).setWidth 4) == down)) ∧
        (s.reg x).toNat ≤ 0xF) := by
  by_cases h : 0xF < (s.reg x).toNat
  · exact .inl ⟨if_pos h, h⟩
  · exact .inr ⟨if_neg h, by omega⟩

end Sys2Proof.Machine
end

