-- ==== Sys2Proof/Laws/Events.lean ====
section
/-! SUPPORT. What a fetch, a Step event and a delivery can answer, and that a placed word is the one the next step
fetches. -/

namespace Sys2Proof.Machine

/-- A fetch is no error exactly at an even `PC` below 4095 (R102). -/
theorem fetchFault_eq_none (s : State) :
    fetchFault s = none ↔ s.pc.toNat < 4095 ∧ s.pc.toNat % 2 = 0 := by
  simp only [fetchFault, Config.memSize]
  split_ifs <;> simp <;> omega

/-- What a fetch error can be, in the order of R102. -/
theorem fetchFault_cases (s : State) :
    (4095 ≤ s.pc.toNat ∧ fetchFault s = some (.pcOutOfRange s.pc)) ∨
      (s.pc.toNat < 4095 ∧ s.pc.toNat % 2 = 1 ∧ fetchFault s = some (.pcMisaligned s.pc)) ∨
      (s.pc.toNat < 4095 ∧ s.pc.toNat % 2 = 0 ∧ fetchFault s = none) := by
  simp only [fetchFault, Config.memSize]
  split_ifs <;> simp <;> omega

/-- A Step event of a halted machine has no effect (R247). -/
theorem stepEvent_of_halted {s : State} (h : s.halt.isSome = true) : stepEvent s = .next s := if_pos h

/-- A Step event of a waiting machine has no effect (R101). -/
theorem stepEvent_of_waiting {s : State} (h : s.wait.isSome = true) : stepEvent s = .next s := by
  by_cases hh : s.halt.isSome = true
  · exact stepEvent_of_halted hh
  · rw [stepEvent, if_neg hh, if_pos h]

/-- A ready machine's Step event decodes the word at `PC`. -/
theorem stepEvent_of_ready {s : State} (h : Ready s) :
    stepEvent s = match decode (fetchWord s) with
      | .unknown word => s.raise (.unknownOpcode s.pc word)
      | .instr i => exec i s := by
  obtain ⟨h1, h2, h3⟩ := h
  have h1' : ¬ s.halt.isSome = true := by simp [h1]
  have h2' : ¬ s.wait.isSome = true := by simp [h2]
  have hf : ∀ (o : Option Error) (r : Result), o = none →
      (match o with | some e => s.raise e | none => r) = r := by rintro _ _ rfl; rfl
  exact (if_neg h1').trans ((if_neg h2').trans (hf _ _ h3))

/-- Everything a Step event can do. -/
theorem stepEvent_cases (s : State) :
    ((s.halt.isSome = true ∨ s.wait.isSome = true) ∧ stepEvent s = .next s) ∨
      (s.halt = none ∧ s.wait = none ∧
        ((∃ e, fetchFault s = some e ∧ stepEvent s = s.raise e) ∨
          (Ready s ∧ ∃ w, decode (fetchWord s) = .unknown w ∧
            stepEvent s = s.raise (.unknownOpcode s.pc w)) ∨
          (Ready s ∧ ∃ i, decode (fetchWord s) = .instr i ∧ stepEvent s = exec i s))) := by
  by_cases hh : s.halt.isSome = true
  · exact .inl ⟨.inl hh, stepEvent_of_halted hh⟩
  by_cases hw : s.wait.isSome = true
  · exact .inl ⟨.inr hw, stepEvent_of_waiting hw⟩
  simp only [Bool.not_eq_true, Option.isSome_eq_false_iff, Option.isNone_iff_eq_none] at hh hw
  refine .inr ⟨hh, hw, ?_⟩
  cases hf : fetchFault s with
  | some e => exact .inl ⟨e, rfl, by simp [stepEvent, hh, hw, hf]⟩
  | none =>
    have hr : Ready s := ⟨hh, hw, hf⟩
    cases hd : decode (fetchWord s) with
    | unknown w => exact .inr (.inl ⟨hr, w, rfl, by rw [stepEvent_of_ready hr, hd]⟩)
    | instr i => exact .inr (.inr ⟨hr, i, rfl, by rw [stepEvent_of_ready hr, hd]⟩)

/-- A halted machine takes no event (R247). -/
theorem deliver_of_halted {s : State} (e : Event) (h : s.halt.isSome = true) : deliver e s = .next s := by
  cases e <;> simp [deliver, stepEvent, tickEvent, keyDownEvent, keyUpEvent, h]

/-- One event and then the rest. -/
theorem deliverAll_cons_of_next {e : Event} {es : List Event} {s t : State} (h : deliver e s = .next t) :
    deliverAll (e :: es) s = deliverAll es t := by
  simp only [deliverAll, h]

@[simp] theorem timerDown_toNat (b : Byte) : (timerDown b).toNat = b.toNat - 1 := by
  have := b.isLt
  simp only [timerDown, BitVec.toNat_ofNat]
  omega

/-- A placed word's state is ready, and the word is the one it fetches. -/
theorem ready_placeWord (s : State) (w : Word) : Ready (placeWord s w) := by
  refine ⟨rfl, rfl, ?_⟩
  rw [fetchFault_eq_none]
  rcases fetchFault_cases s with ⟨h, h'⟩ | ⟨h, h2, h'⟩ | ⟨h, h2, h'⟩ <;>
    (simp [placeWord, h', Config.loadAddr]; try omega)

theorem fetchWord_placeWord (s : State) (w : Word) (h : Memory.wf s.mem) :
    fetchWord (placeWord s w) = w := by
  have hpc := (fetchFault_eq_none _).1 (ready_placeWord s w).2.2
  have hlen : (placeWord s w).pc.toNat + [highByte w, lowByte w].length ≤ Config.memSize := by
    simp only [List.length_cons, List.length_nil, Config.memSize]; omega
  have hmem : (placeWord s w).mem =
      Memory.writeAll s.mem (placeWord s w).pc.toNat [highByte w, lowByte w] := rfl
  have h0 := Memory.read_writeAll [highByte w, lowByte w] s.mem _ 0 hlen h (by simp)
  have h1 := Memory.read_writeAll [highByte w, lowByte w] s.mem _ 1 hlen h (by simp)
  rw [fetchWord, hmem]
  simp only [Nat.add_zero] at h0
  rw [h0, h1]
  exact wordOfBytes_bytes w

/-- The next step of a state with a placed instruction runs it. -/
theorem step_withFetchWord (s : State) (w : Nat) (i : Instr) (h : Memory.wf s.mem)
    (hd : decode (BitVec.ofNat 16 (w % 2 ^ 16)) = .instr i) :
    step (s.withFetchWord 16 w) = exec i (s.withFetchWord 16 w) := by
  change stepEvent (placeWord s _) = exec i (placeWord s _)
  rw [stepEvent_of_ready (ready_placeWord s _), fetchWord_placeWord s _ h, hd]

end Sys2Proof.Machine
end

