-- ==== Sys2Proof/Laws/Exec.lean ====
section
/-! SUPPORT. What the instructions with errors of their own can answer: one inversion lemma each, so that no proof
unfolds them again. -/

namespace Sys2Proof.Machine

/-- RET raises, pops, or finds no entry. -/
theorem execRet_cases (s : State) :
    (s.sp = 0 ∧ execRet s = s.raise (.stackFault 0 .return)) ∨
      (s.sp ≠ 0 ∧ ∃ a, s.stackEntry (s.sp - 1) = some a ∧
        execRet s = .next { s with sp := s.sp - 1, pc := a }) ∨
      (s.sp ≠ 0 ∧ s.stackEntry (s.sp - 1) = none ∧ execRet s = .fault .noStackEntry) := by
  by_cases h : s.sp = 0
  · exact .inl ⟨h, if_pos h⟩
  · cases h' : s.stackEntry (s.sp - 1) with
    | some a => exact .inr (.inl ⟨h, a, rfl, by rw [execRet, if_neg h, h']⟩)
    | none => exact .inr (.inr ⟨h, rfl, by rw [execRet, if_neg h, h']⟩)

/-- CALL raises, pushes, or finds no entry. -/
theorem execCall_cases (nnn : Addr12) (s : State) :
    (s.sp = s.stackCap ∧ execCall nnn s = s.raise (.stackFault s.sp .call)) ∨
      (s.sp ≠ s.stackCap ∧ s.sp < s.stack.length ∧
        execCall nnn s = .next { s with
          stack := s.stack.set s.sp (s.pc + 2), sp := s.sp + 1, pc := addrOperand nnn }) ∨
      (s.sp ≠ s.stackCap ∧ s.stack.length ≤ s.sp ∧ execCall nnn s = .fault .noStackEntry) := by
  by_cases h : s.sp = s.stackCap
  · exact .inl ⟨h, if_pos h⟩
  · by_cases hl : s.sp < s.stack.length
    · have h' : s.stackEntry s.sp = some s.stack[s.sp] := List.getElem?_eq_getElem hl
      exact .inr (.inl ⟨h, hl, by rw [execCall, if_neg h, h']⟩)
    · have h' : s.stackEntry s.sp = none := List.getElem?_eq_none (by omega)
      exact .inr (.inr ⟨h, by omega, by rw [execCall, if_neg h, h']⟩)

/-- What DRW has drawn when no address is out of memory. -/
def drawn (x y : Reg) (n : Nibble) (s : State) : Drawing :=
  plotSprite (s.display, false) (drawColumn s x) (drawRow s y) 0 (Memory.readAll s.mem (ea s 0) n.toNat)

/-- DRW draws, or raises at the smallest address out of memory. -/
theorem execDrw_cases (x y : Reg) (n : Nibble) (s : State) :
    ((n.toNat = 0 ∨ s.i.toNat + n.toNat ≤ Config.memSize) ∧
        execDrw x y n s = .next
          (({ s.setReg vf 0 with display := (drawn x y n s).1 }).setReg vf
            (flagByte (drawn x y n s).2)).advance) ∨
      (n.toNat ≠ 0 ∧ Config.memSize < s.i.toNat + n.toNat ∧
        execDrw x y n s = s.raise (.memOutOfRange s.pc (max s.i.toNat Config.memSize))) := by
  rcases checkReads_cases s n.toNat with ⟨h, h'⟩ | ⟨h, h1, h2⟩
  · exact .inl ⟨h', by rw [execDrw, h]; rfl⟩
  · exact .inr ⟨h1, h2, by rw [execDrw, h]⟩

/-- The bytes drawn put exactly the sprite's bits on the cells (R172, R173). -/
theorem bytesBit_readAll (s : State) (x y : Reg) (n : Nibble) (c : Fin 64) (r : Fin 32) :
    bytesBit (drawColumn s x) (drawRow s y) 0 (Memory.readAll s.mem (ea s 0) n.toNat) c r =
      spriteBit s x y n c r := by
  have hc : columnsFrom (drawColumn s x) c = (c.val + 64 - (s.reg x).toNat % 64) % 64 := by
    simp only [columnsFrom, drawColumn]; omega
  have hr : rowsFrom (drawRow s y) r = (r.val + 32 - (s.reg y).toNat % 32) % 32 := by
    simp only [rowsFrom, drawRow]; omega
  simp only [bytesBit, byteBit, spriteBit, hc, hr, Nat.zero_le, decide_true, Bool.true_and, Nat.zero_add,
    Memory.length_readAll, Nat.sub_zero]
  by_cases h : (r.val + 32 - (s.reg y).toNat % 32) % 32 < n.toNat
  · rw [Memory.getD_readAll _ _ _ _ _ h]
    simp only [h, decide_true, Bool.true_and, Bool.and_true, ea, Nat.add_zero]
  · simp [h]

/-- DRW XORs the sprite's bits onto the cells. -/
theorem displayCell_drawn (x y : Reg) (n : Nibble) (s : State) (c : Fin 64) (r : Fin 32) :
    displayCell (drawn x y n s).1 c r = (s.cell c r ^^ spriteBit s x y n c r) := by
  have := n.isLt
  rw [drawn, displayCell_plotSprite _ _ _ _ _ (by simp only [Memory.length_readAll]; omega),
    bytesBit_readAll]
  rfl

/-- DRW's flag: some cell was on under a 1 bit of the sprite. -/
theorem drawn_flag (x y : Reg) (n : Nibble) (s : State) :
    (drawn x y n s).2 = true ↔ ∃ c r, s.cell c r = true ∧ spriteBit s x y n c r = true := by
  have := n.isLt
  rw [drawn, plotSprite_flag _ _ _ _ _ (by simp only [Memory.length_readAll]; omega)]
  simp only [bytesBit_readAll, Bool.false_eq_true, false_or]
  rfl

/-- LD Vx, [I] loads, or raises at the smallest address out of memory. -/
theorem execLdVxMem_cases (x : Reg) (s : State) :
    (s.i.toNat + x.toNat < Config.memSize ∧
        execLdVxMem x s = .next (s.setRegsFrom 0 (Memory.readAll s.mem s.i.toNat (x.toNat + 1))).advance) ∨
      (Config.memSize ≤ s.i.toNat + x.toNat ∧
        execLdVxMem x s = s.raise (.memOutOfRange s.pc (max s.i.toNat Config.memSize))) := by
  rcases checkReads_cases s (x.toNat + 1) with ⟨h, h'⟩ | ⟨h, -, h'⟩
  · exact .inl ⟨by omega, by rw [execLdVxMem, h]; rfl⟩
  · exact .inr ⟨by omega, by rw [execLdVxMem, h]⟩

/-- The registers LD Vx, [I] loads, and the ones it leaves. -/
theorem reg_loaded (s : State) (x r : Reg) :
    (s.setRegsFrom 0 (Memory.readAll s.mem s.i.toNat (x.toNat + 1))).reg r =
      if r.toNat ≤ x.toNat then Memory.read s.mem (s.i.toNat + r.toNat) else s.reg r := by
  have hx := x.isLt
  rw [State.reg_setRegsFrom _ _ _ _ (by simp only [Memory.length_readAll]; omega)]
  simp only [Nat.zero_le, if_true, Nat.sub_zero]
  split
  · exact Memory.getD_readAll _ _ _ _ _ (by omega)
  · exact List.getD_eq_default _ _ (by simp only [Memory.length_readAll]; omega)

end Sys2Proof.Machine
end

