-- ==== Sys2Proof/Laws/Flags.lean ====
section
/-! SUPPORT. The 8-bit results as numbers (R153): one lemma per result. -/

namespace Sys2Proof.Machine

@[simp] theorem sum8_toNat (a b : Byte) : (sum8 a b).toNat = (a.toNat + b.toNat) % 256 := by
  simp only [sum8, BitVec.toNat_ofNat]
  omega

@[simp] theorem diff8_toNat (a b : Byte) : (diff8 a b).toNat = (a.toNat + 256 - b.toNat) % 256 := by
  simp only [diff8, BitVec.toNat_ofNat]
  omega

@[simp] theorem half8_toNat (a : Byte) : (half8 a).toNat = a.toNat / 2 := by
  have := a.isLt
  simp only [half8, BitVec.toNat_ofNat]
  omega

@[simp] theorem double8_toNat (a : Byte) : (double8 a).toNat = a.toNat * 2 % 256 := by
  simp only [double8, BitVec.toNat_ofNat]
  omega

theorem lowBit8_eq (a : Byte) : lowBit8 a = decide (a.toNat % 2 = 1) := by
  simp [lowBit8, BitVec.getLsbD, Nat.testBit_zero]

theorem highBit8_eq (a : Byte) : highBit8 a = decide (128 ≤ a.toNat) := by
  have := a.isLt
  rw [highBit8, BitVec.getLsbD, Nat.testBit_eq_decide_div_mod_eq, decide_eq_decide]
  omega

@[simp] theorem flagByte_true : flagByte true = 1 := rfl

@[simp] theorem flagByte_false : flagByte false = 0 := rfl

end Sys2Proof.Machine
end

