-- ==== Sys2Proof/Laws/Frame.lean ====
section
/-! SUPPORT. Frames of the shared operations: one lemma per shape of update, for any set of written parts that
holds what the update writes. -/

namespace Sys2Proof.Machine

theorem Frame.refl (s : State) (P : Part → Prop) : Frame s s P := by
  intro p _
  cases p <;> simp [SameAt]

theorem Frame.trans {s t u : State} {P : Part → Prop} (h : Frame s t P) (h' : Frame t u P) : Frame s u P := by
  intro p hp
  have a := h p hp
  have b := h' p hp
  cases p <;> simp only [SameAt] at * <;> simp_all

/-- A frame, part by part. -/
theorem Frame.ofParts {s t : State} {P : Part → Prop}
    (v : ∀ r, ¬ P (.v r) → t.reg r = s.reg r) (i : ¬ P .i → t.i = s.i) (pc : ¬ P .pc → t.pc = s.pc)
    (stack : ¬ P .stack → t.sp = s.sp ∧ t.stack = s.stack) (cap : t.stackCap = s.stackCap)
    (dt : ¬ P .dt → t.dt = s.dt) (st : ¬ P .st → t.st = s.st)
    (cell : ∀ x y, ¬ P (.cell x y) → t.cell x y = s.cell x y) (key : ∀ k, ¬ P (.key k) → t.key k = s.key k)
    (wait : ¬ P .wait → t.wait = s.wait) (halt : ¬ P .halt → t.halt = s.halt)
    (byte : ∀ a, ¬ P (.byte a) → Memory.read t.mem a = Memory.read s.mem a)
    (draws : ¬ P .draws → t.draws = s.draws) (inbox : ¬ P .inbox → t.inbox = s.inbox) : Frame s t P := by
  intro p hp
  cases p
  case v r => exact v r hp
  case i => exact i hp
  case pc => exact pc hp
  case stack => exact stack hp
  case stackCap => exact cap
  case dt => exact dt hp
  case st => exact st hp
  case cell x y => exact cell x y hp
  case key k => exact key k hp
  case wait => exact wait hp
  case halt => exact halt hp
  case byte a => exact byte a hp
  case draws => exact draws hp
  case inbox => exact inbox hp

/-- An update of registers and `PC` alone. -/
theorem Frame.ofRegs {s t : State} {P : Part → Prop} (hpc : P .pc) (hv : ∀ r, ¬ P (.v r) → t.reg r = s.reg r)
    (h : t = { s with v := t.v, pc := t.pc }) : Frame s t P := by
  refine Frame.ofParts hv ?_ (fun h => absurd hpc h) ?_ ?_ ?_ ?_ ?_ ?_ ?_ ?_ ?_ ?_ ?_ <;> (try intros) <;>
    rw [h] <;> first | rfl | exact ⟨rfl, rfl⟩

/-- One register and the default advance. -/
theorem Frame.setReg_advance (s : State) (x : Reg) (b : Byte) {P : Part → Prop} (hpc : P .pc) (hx : P (.v x)) :
    Frame s (s.setReg x b).advance P := by
  refine Frame.ofRegs hpc (fun r hr => ?_) rfl
  rw [State.reg_advance, State.reg_setReg, if_neg (by rintro rfl; exact hr hx)]

/-- A result, its flag and the default advance. -/
theorem Frame.setResultAndFlag_advance (s : State) (x : Reg) (b : Byte) (c : Bool) {P : Part → Prop}
    (hpc : P .pc) (hx : P (.v x)) (hf : P (.v vf)) : Frame s (s.setResultAndFlag x b c).advance P := by
  refine Frame.ofRegs hpc (fun r hr => ?_) rfl
  rw [State.reg_advance, State.reg_setResultAndFlag, if_neg (by rintro rfl; exact hr hf),
    if_neg (by rintro rfl; exact hr hx)]

/-- A skip. -/
theorem Frame.skipIf (s : State) (c : Bool) {P : Part → Prop} (hpc : P .pc) : Frame s (s.skipIf c) P :=
  Frame.ofRegs hpc (fun _ _ => rfl) rfl

/-- Bytes stored at `I` and on, and the default advance. -/
theorem Frame.store_advance (s : State) (bs : List Byte) {P : Part → Prop} (hpc : P .pc)
    (hb : ∀ k, k < bs.length → P (.byte (ea s k))) :
    Frame s (State.advance { s with mem := Memory.writeAll s.mem s.i.toNat bs }) P := by
  refine Frame.ofParts (fun _ _ => rfl) (fun _ => rfl) (fun h => absurd hpc h) (fun _ => ⟨rfl, rfl⟩) rfl
    (fun _ => rfl) (fun _ => rfl) (fun _ _ _ => rfl) (fun _ _ => rfl) (fun _ => rfl) (fun _ => rfl)
    (fun a ha => ?_) (fun _ => rfl) (fun _ => rfl)
  refine Memory.read_writeAll_of_not_mem _ _ ?_
  by_contra hc
  have := hb (a - s.i.toNat) (by omega)
  rw [show ea s (a - s.i.toNat) = a by simp only [ea]; omega] at this
  exact ha this

/-- The registers LD Vx, [I] loads, and the default advance. -/
theorem Frame.load_advance (s : State) (x : Reg) :
    Frame s (s.setRegsFrom 0 (Memory.readAll s.mem s.i.toNat (x.toNat + 1))).advance (writes (.ldVxMem x) s) := by
  refine Frame.ofParts (fun r hr => ?_) (fun _ => by simp) (fun h => absurd (.inl rfl) h) (fun _ => by simp)
    (by simp) (fun _ => by simp) (fun _ => by simp) (fun x y h => by simp [State.cell])
    (fun _ _ => by simp [State.key]) (fun _ => by simp) (fun _ => by simp) (fun a ha => by simp)
    (fun _ => by simp) (fun _ => by simp)
  rw [State.reg_advance, reg_loaded, if_neg (fun h => hr (.inr ⟨r, h, rfl⟩))]

/-- The drawing DRW makes, its flag and the default advance. -/
theorem Frame.draw_advance (x y : Reg) (n : Nibble) (s : State) :
    Frame s (({ s.setReg vf 0 with display := (drawn x y n s).1 }).setReg vf
      (flagByte (drawn x y n s).2)).advance (writes (.drw x y n) s) := by
  refine Frame.ofParts (fun r hr => ?_) (fun _ => rfl) (fun h => absurd (.inl rfl) h) (fun _ => ⟨rfl, rfl⟩) rfl
    (fun _ => rfl) (fun _ => rfl) (fun x y h => absurd (.inr (.inr ⟨x, y, rfl⟩)) h) (fun _ _ => rfl)
    (fun _ => rfl) (fun _ => rfl) (fun _ _ => rfl) (fun _ => rfl) (fun _ => rfl)
  have : r ≠ vf := by rintro rfl; exact hr (.inr (.inl rfl))
  simp only [State.reg_advance, State.reg_setReg, if_neg this]
  show (s.setReg vf 0).reg r = s.reg r
  simp [this]

/-- One key flag. -/
theorem Frame.setKey (s : State) (k : Nibble) (b : Bool) {P : Part → Prop} (hk : P (.key k)) :
    Frame s (s.setKey k b) P := by
  refine Frame.ofParts (fun _ _ => rfl) (fun _ => rfl) (fun _ => rfl) (fun _ => ⟨rfl, rfl⟩) rfl (fun _ => rfl)
    (fun _ => rfl) (fun _ _ _ => rfl) (fun j hj => ?_) (fun _ => rfl) (fun _ => rfl) (fun _ _ => rfl)
    (fun _ => rfl) (fun _ => rfl)
  rw [State.key_setKey, if_neg (by rintro rfl; exact hj hk)]

end Sys2Proof.Machine
end

