-- ==== Sys2Proof/Laws/PerInstr.lean ====
section
/-! SUPPORT. Per instruction: its encoding agrees with its row of spec/opcode_table.json. The masks and matches are
the table's own numbers, a second transcription beside the nibble patterns of the decoder (Decode.lean). -/

namespace Sys2Proof.Laws.TableRow

/-- The row's mask (the bits the table fixes). -/
def mask : Instr → Word
  | .cls => 0xFFFF
  | .ret => 0xFFFF
  | .jp _ => 0xF000
  | .call _ => 0xF000
  | .seVxNN _ _ => 0xF000
  | .sneVxNN _ _ => 0xF000
  | .seVxVy _ _ _ => 0xF000
  | .ldVxNN _ _ => 0xF000
  | .addVxNN _ _ => 0xF000
  | .ldVxVy _ _ => 0xF00F
  | .orVxVy _ _ => 0xF00F
  | .andVxVy _ _ => 0xF00F
  | .xorVxVy _ _ => 0xF00F
  | .addVxVy _ _ => 0xF00F
  | .subVxVy _ _ => 0xF00F
  | .shrVx _ _ => 0xF00F
  | .subnVxVy _ _ => 0xF00F
  | .shlVx _ _ => 0xF00F
  | .sneVxVy _ _ _ => 0xF000
  | .ldI _ => 0xF000
  | .jpV0 _ => 0xF000
  | .rndVxNN _ _ => 0xF000
  | .drw _ _ _ => 0xF000
  | .skp _ => 0xF0FF
  | .sknp _ => 0xF0FF
  | .ldVxDT _ => 0xF0FF
  | .ldVxK _ => 0xF0FF
  | .ldDTVx _ => 0xF0FF
  | .ldSTVx _ => 0xF0FF
  | .addIVx _ => 0xF0FF
  | .ldFVx _ => 0xF0FF
  | .ldBVx _ => 0xF0FF
  | .ldMemVx _ => 0xF0FF
  | .ldVxMem _ => 0xF0FF

/-- The row's match (the value of the fixed bits). -/
def fixedBits : Instr → Word
  | .cls => 0x00E0
  | .ret => 0x00EE
  | .jp _ => 0x1000
  | .call _ => 0x2000
  | .seVxNN _ _ => 0x3000
  | .sneVxNN _ _ => 0x4000
  | .seVxVy _ _ _ => 0x5000
  | .ldVxNN _ _ => 0x6000
  | .addVxNN _ _ => 0x7000
  | .ldVxVy _ _ => 0x8000
  | .orVxVy _ _ => 0x8001
  | .andVxVy _ _ => 0x8002
  | .xorVxVy _ _ => 0x8003
  | .addVxVy _ _ => 0x8004
  | .subVxVy _ _ => 0x8005
  | .shrVx _ _ => 0x8006
  | .subnVxVy _ _ => 0x8007
  | .shlVx _ _ => 0x800E
  | .sneVxVy _ _ _ => 0x9000
  | .ldI _ => 0xA000
  | .jpV0 _ => 0xB000
  | .rndVxNN _ _ => 0xC000
  | .drw _ _ _ => 0xD000
  | .skp _ => 0xE09E
  | .sknp _ => 0xE0A1
  | .ldVxDT _ => 0xF007
  | .ldVxK _ => 0xF00A
  | .ldDTVx _ => 0xF015
  | .ldSTVx _ => 0xF018
  | .addIVx _ => 0xF01E
  | .ldFVx _ => 0xF029
  | .ldBVx _ => 0xF033
  | .ldMemVx _ => 0xF055
  | .ldVxMem _ => 0xF065

/-- The bits the table fixes have the table's values in the instruction's word. -/
def Statement (i : Instr) : Prop := encode i &&& mask i = fixedBits i

theorem nibble_and_ones (v : Nibble) : v &&& 0xF#4 = v := BitVec.and_allOnes

theorem byte_and_ones (v : Byte) : v &&& 0xFF#8 = v := BitVec.and_allOnes

/-- Formats `NNN`, `XNN`, `XY`/`XYN`, `XYs` and `Xss` (R72): only the fixed parts stay under the mask. -/
theorem masked_nnn (c : Nibble) (nnn : Addr12) : (c ++ nnn) &&& (0xF#4 ++ 0#12) = c ++ 0#12 := by
  rw [BitVec.and_append]
  simp [nibble_and_ones]

theorem masked_xnn (c : Nibble) (x : Reg) (nn : Byte) :
    (c ++ x ++ nn) &&& (0xF#4 ++ 0#4 ++ 0#8) = c ++ 0#4 ++ 0#8 := by
  rw [BitVec.and_append, BitVec.and_append]
  simp [nibble_and_ones]

theorem masked_xyn (c : Nibble) (x y : Reg) (n : Nibble) :
    (c ++ x ++ y ++ n) &&& (0xF#4 ++ 0#4 ++ 0#4 ++ 0#4) = c ++ 0#4 ++ 0#4 ++ 0#4 := by
  rw [BitVec.and_append, BitVec.and_append, BitVec.and_append]
  simp [nibble_and_ones]

theorem masked_xys (c : Nibble) (x y : Reg) (n : Nibble) :
    (c ++ x ++ y ++ n) &&& (0xF#4 ++ 0#4 ++ 0#4 ++ 0xF#4) = c ++ 0#4 ++ 0#4 ++ n := by
  rw [BitVec.and_append, BitVec.and_append, BitVec.and_append]
  simp [nibble_and_ones]

theorem masked_xss (c : Nibble) (x : Reg) (nn : Byte) :
    (c ++ x ++ nn) &&& (0xF#4 ++ 0#4 ++ 0xFF#8) = c ++ 0#4 ++ nn := by
  rw [BitVec.and_append, BitVec.and_append]
  simp [nibble_and_ones, byte_and_ones]

theorem cls : Statement .cls := rfl
theorem ret : Statement .ret := rfl
theorem jp (nnn : Addr12) : Statement (.jp nnn) := masked_nnn _ _
theorem call (nnn : Addr12) : Statement (.call nnn) := masked_nnn _ _
theorem seVxNN (x : Reg) (nn : Byte) : Statement (.seVxNN x nn) := masked_xnn _ _ _
theorem sneVxNN (x : Reg) (nn : Byte) : Statement (.sneVxNN x nn) := masked_xnn _ _ _
theorem seVxVy (x : Reg) (y : Reg) (n : Nibble) : Statement (.seVxVy x y n) := masked_xyn _ _ _ _
theorem ldVxNN (x : Reg) (nn : Byte) : Statement (.ldVxNN x nn) := masked_xnn _ _ _
theorem addVxNN (x : Reg) (nn : Byte) : Statement (.addVxNN x nn) := masked_xnn _ _ _
theorem ldVxVy (x : Reg) (y : Reg) : Statement (.ldVxVy x y) := masked_xys _ _ _ _
theorem orVxVy (x : Reg) (y : Reg) : Statement (.orVxVy x y) := masked_xys _ _ _ _
theorem andVxVy (x : Reg) (y : Reg) : Statement (.andVxVy x y) := masked_xys _ _ _ _
theorem xorVxVy (x : Reg) (y : Reg) : Statement (.xorVxVy x y) := masked_xys _ _ _ _
theorem addVxVy (x : Reg) (y : Reg) : Statement (.addVxVy x y) := masked_xys _ _ _ _
theorem subVxVy (x : Reg) (y : Reg) : Statement (.subVxVy x y) := masked_xys _ _ _ _
theorem shrVx (x : Reg) (y : Reg) : Statement (.shrVx x y) := masked_xys _ _ _ _
theorem subnVxVy (x : Reg) (y : Reg) : Statement (.subnVxVy x y) := masked_xys _ _ _ _
theorem shlVx (x : Reg) (y : Reg) : Statement (.shlVx x y) := masked_xys _ _ _ _
theorem sneVxVy (x : Reg) (y : Reg) (n : Nibble) : Statement (.sneVxVy x y n) := masked_xyn _ _ _ _
theorem ldI (nnn : Addr12) : Statement (.ldI nnn) := masked_nnn _ _
theorem jpV0 (nnn : Addr12) : Statement (.jpV0 nnn) := masked_nnn _ _
theorem rndVxNN (x : Reg) (nn : Byte) : Statement (.rndVxNN x nn) := masked_xnn _ _ _
theorem drw (x : Reg) (y : Reg) (n : Nibble) : Statement (.drw x y n) := masked_xyn _ _ _ _
theorem skp (x : Reg) : Statement (.skp x) := masked_xss _ _ _
theorem sknp (x : Reg) : Statement (.sknp x) := masked_xss _ _ _
theorem ldVxDT (x : Reg) : Statement (.ldVxDT x) := masked_xss _ _ _
theorem ldVxK (x : Reg) : Statement (.ldVxK x) := masked_xss _ _ _
theorem ldDTVx (x : Reg) : Statement (.ldDTVx x) := masked_xss _ _ _
theorem ldSTVx (x : Reg) : Statement (.ldSTVx x) := masked_xss _ _ _
theorem addIVx (x : Reg) : Statement (.addIVx x) := masked_xss _ _ _
theorem ldFVx (x : Reg) : Statement (.ldFVx x) := masked_xss _ _ _
theorem ldBVx (x : Reg) : Statement (.ldBVx x) := masked_xss _ _ _
theorem ldMemVx (x : Reg) : Statement (.ldMemVx x) := masked_xss _ _ _
theorem ldVxMem (x : Reg) : Statement (.ldVxMem x) := masked_xss _ _ _

end Sys2Proof.Laws.TableRow
end

