-- ==== Sys2Proof/Tests/Slice0.lean ====
section
/-! SUPPORT. Tests: the well-formedness checks, words written out from the spec's encodings, single steps with the
results 95_test_vectors.md gives (the vector's id stands before each), and for every statement of
Certificates/Slice0/Obligations.lean that has hypotheses a state that meets them. -/

namespace Sys2Proof.Tests

open Sys2Proof.Machine

/-! ### Helpers -/

/-- The answer is a next state with the given property. -/
def nextIs (r : Result) (p : State → Bool) : Bool :=
  match r with
  | .next t => p t
  | .fault _ => false
  | .refused _ => false

/-- One step of the machine from `s` with the word placed at its `PC`. -/
def ran (s : State) (w : Nat) (p : State → Bool) : Bool := nextIs (step (s.withFetchWord 16 w)) p

/-- The creation state with some registers set. -/
def regs (l : List (Reg × Byte)) : State := l.foldl (fun s p => s.setReg p.1 p.2) State.reset

/-- The creation state with `I` and some registers set. -/
def regsI (i : Word) (l : List (Reg × Byte)) : State := { regs l with i := i }

/-- The step raises: it changes the halt record alone. -/
def raises (s : State) (w : Nat) (e : Error) : Bool :=
  ran s w fun t => t == { s.withFetchWord 16 w with halt := some e }

/-- The columns of a row, among the given ones, whose cells are on. -/
def onIn (s : State) (y : Fin 32) (columns : List (Fin 64)) : List (Fin 64) :=
  columns.filter fun x => s.cell x y

/-! ### Well-formedness -/

theorem test_unknown_of_legal_word_is_ill_formed : (Decoded.unknown 0x6A05).wellFormed = false := by decide
theorem test_unknown_of_5XY1_is_ill_formed : (Decoded.unknown 0x5121).wellFormed = false := by decide
theorem test_unknown_of_illegal_word_is_well_formed : (Decoded.unknown 0xF000).wellFormed = true := by decide
theorem test_stack_capacity_15_is_ill_formed : (Params.mk 15 defaultFont).wellFormed = false := by decide
theorem test_font_of_79_bytes_is_ill_formed : (Params.mk 16 (List.replicate 79 0)).wellFormed = false := by decide
theorem test_default_params_are_well_formed : defaultParams.wellFormed = true := by decide
theorem test_image_of_3585_bytes_does_not_fit : imageFits (List.replicate 3585 0) = false := by
  rw [imageFits, List.length_replicate]
  decide
theorem test_image_of_3584_bytes_fits : imageFits (List.replicate 3584 0) = true := by
  rw [imageFits, List.length_replicate]
  decide

/-! ### Memory -/

/-- An entry equal to what the address reads as unlisted, and two entries out of order, are not canonical. -/
theorem test_ill_formed_memories :
    ¬ Memory.wf [(0x300, 0)] ∧ ¬ Memory.wf [(0x301, 1), (0x300, 1)] ∧ ¬ Memory.wf [(4096, 1)] ∧
      ¬ Memory.wf [(0, 0xF0)] := by decide
/-- Writing the value an unlisted address reads as removes the entry. -/
theorem test_write_back_restores_memory :
    Memory.write (Memory.write [] 0x300 7) 0x300 0 = [] ∧ Memory.write (Memory.write [] 0 7) 0 0xF0 = [] := by decide
/-- 20_memory.md R55: the glyphs of A and F. -/
theorem test_font_glyphs :
    Memory.readAll [] 0x032 5 = [0xF0, 0x90, 0xF0, 0x90, 0x90] ∧
      Memory.readAll [] 0x04B 6 = [0xF0, 0x80, 0xF0, 0x80, 0x80, 0x00] := by decide

/-! ### Decoding: words of every instruction, from 30_encoding.md R72 to R79 -/

theorem test_decode_class_0 : decode 0x00E0 = .instr .cls ∧ decode 0x00EE = .instr .ret := by decide
theorem test_decode_jumps :
    decode 0x1234 = .instr (.jp 0x234) ∧ decode 0x2ABC = .instr (.call 0xABC) ∧
      decode 0xBF01 = .instr (.jpV0 0xF01) := by decide
theorem test_decode_skips :
    decode 0x3310 = .instr (.seVxNN 0x3 0x10) ∧ decode 0x4A5B = .instr (.sneVxNN 0xA 0x5B) ∧
      decode 0x5120 = .instr (.seVxVy 0x1 0x2 0x0) ∧ decode 0x912F = .instr (.sneVxVy 0x1 0x2 0xF) := by decide
theorem test_decode_immediates :
    decode 0x6A05 = .instr (.ldVxNN 0xA 0x05) ∧ decode 0x7203 = .instr (.addVxNN 0x2 0x03) ∧
      decode 0xC80F = .instr (.rndVxNN 0x8 0x0F) := by decide
theorem test_decode_class_8_low :
    decode 0x8120 = .instr (.ldVxVy 1 2) ∧ decode 0x8121 = .instr (.orVxVy 1 2) ∧
      decode 0x8122 = .instr (.andVxVy 1 2) ∧ decode 0x8123 = .instr (.xorVxVy 1 2) ∧
      decode 0x8124 = .instr (.addVxVy 1 2) := by decide
theorem test_decode_class_8_high :
    decode 0x8125 = .instr (.subVxVy 1 2) ∧ decode 0x8126 = .instr (.shrVx 1 2) ∧
      decode 0x8127 = .instr (.subnVxVy 1 2) ∧ decode 0x812E = .instr (.shlVx 1 2) := by decide
theorem test_decode_display : decode 0xD125 = .instr (.drw 0x1 0x2 0x5) := by decide
theorem test_decode_keys : decode 0xE59E = .instr (.skp 5) ∧ decode 0xE5A1 = .instr (.sknp 5) := by decide
theorem test_decode_timers :
    decode 0xF307 = .instr (.ldVxDT 3) ∧ decode 0xF30A = .instr (.ldVxK 3) ∧
      decode 0xF315 = .instr (.ldDTVx 3) ∧ decode 0xF318 = .instr (.ldSTVx 3) := by decide
theorem test_decode_index :
    decode 0xA2F0 = .instr (.ldI 0x2F0) ∧ decode 0xF21E = .instr (.addIVx 2) ∧
      decode 0xF029 = .instr (.ldFVx 0) := by decide
theorem test_decode_transfers :
    decode 0xF333 = .instr (.ldBVx 3) ∧ decode 0xF255 = .instr (.ldMemVx 2) ∧
      decode 0xFF65 = .instr (.ldVxMem 0xF) := by decide
/-- R80, and vectors E1 to E5 and S3. -/
theorem test_decode_illegal :
    decode 0xF000 = .unknown 0xF000 ∧ decode 0x0123 = .unknown 0x0123 ∧ decode 0x01E0 = .unknown 0x01E0 ∧
      decode 0xE000 = .unknown 0xE000 ∧ decode 0x8018 = .unknown 0x8018 ∧ decode 0x801F = .unknown 0x801F := by
  decide
/-- R57: the byte at the lower address is the high byte. -/
theorem test_decode_bytes_high_first : decodeBytes 0x6A 0x05 = .instr (.ldVxNN 0xA 0x05) := by decide
theorem test_decode_table_word : decodeTableWord 16 0x6A05 = some (.ldVxNN 0xA 0x05) := by decide

/-! ### The step, and its errors -/

/-- S3. -/
theorem test_unknown_opcode : raises State.reset 0xF000 (.unknownOpcode 0x200 0xF000) = true := by decide
/-- E6 and E7: the range is checked before the alignment. -/
theorem test_fetch_errors :
    step { State.reset with pc := 0x201 } =
        .next { State.reset with pc := 0x201, halt := some (.pcMisaligned 0x201) } ∧
      step { State.reset with pc := 0xFFF } =
        .next { State.reset with pc := 0xFFF, halt := some (.pcOutOfRange 0xFFF) } := ⟨rfl, rfl⟩
/-- E9: the last fetchable address. -/
theorem test_step_at_last_address :
    ran { State.reset with pc := 0xFFE } 0x6007 (fun t => t.reg 0 == 7 && t.pc == 0x1000) = true := by decide
/-- E10: an empty image. -/
theorem test_empty_image_raises :
    step State.reset = .next { State.reset with halt := some (.unknownOpcode 0x200 0) } := rfl
/-- E11. -/
theorem test_halted_ignores_events :
    deliverAll [.step, .tick, .keyDown 1] { State.reset with halt := some (.pcMisaligned 1), dt := 5 } =
      .next { State.reset with halt := some (.pcMisaligned 1), dt := 5 } := rfl
/-- R67, from program P7: a stored word is the one fetched next. -/
theorem test_store_is_fetched :
    nextIs (step (regsI 0x202 [(0, 0x61), (1, 0x0A)] |>.withFetchWord 16 0xF155))
      (fun t => nextIs (step t) fun u => u.reg 1 == 0x0A && u.pc == 0x204) = true := by decide

/-! ### Control flow -/

/-- C1. -/
theorem test_ret_empty_stack : raises State.reset 0x00EE (.stackFault 0 .return) = true := by decide
/-- C2. -/
theorem test_ret_pops :
    ran { State.reset with sp := 2, stack := [0x206, 0x35A] ++ List.replicate 14 0 } 0x00EE
      (fun t => t.sp == 1 && t.pc == 0x35A) = true := by decide
/-- R121's example. -/
theorem test_jp : ran State.reset 0x1234 (fun t => t.pc == 0x234) = true := by decide
/-- C3. -/
theorem test_call_full_stack : raises { State.reset with sp := 16 } 0x2400 (.stackFault 16 .call) = true := by decide
/-- C4. -/
theorem test_call_pushes :
    ran { State.reset with sp := 15 } 0x2400
      (fun t => t.stackEntry 15 == some 0x202 && t.sp == 16 && t.pc == 0x400) = true := by decide
/-- C8, C9. -/
theorem test_se_immediate :
    ran (regs [(3, 0x10)]) 0x3310 (fun t => t.pc == 0x204) = true ∧
      ran (regs [(3, 0x11)]) 0x3310 (fun t => t.pc == 0x202) = true := by decide
/-- C10, and R124's example. -/
theorem test_sne_immediate :
    ran (regs [(3, 0x11)]) 0x4310 (fun t => t.pc == 0x204) = true ∧
      ran (regs [(3, 0x10)]) 0x4310 (fun t => t.pc == 0x202) = true := by decide
/-- C11: N is ignored. -/
theorem test_se_registers : ran (regs [(1, 7), (2, 7)]) 0x5121 (fun t => t.pc == 0x204) = true := by decide
/-- C13, C14. -/
theorem test_sne_registers :
    ran (regs [(1, 7), (2, 7)]) 0x9120 (fun t => t.pc == 0x202) = true ∧
      ran (regs [(1, 7), (2, 8)]) 0x9120 (fun t => t.pc == 0x204) = true := by decide
/-- C17. -/
theorem test_jp_v0_is_not_reduced : ran (regs [(0, 0xFF)]) 0xBFFF (fun t => t.pc == 0x10FE) = true := by decide

/-! ### Registers and flags -/

/-- A1 (S1). -/
theorem test_ld_immediate : ran State.reset 0x6A05 (fun t => t.reg 0xA == 5 && t.pc == 0x202) = true := by decide
/-- A25, A2. -/
theorem test_add_immediate :
    ran (regs [(2, 0xFE), (0xF, 9)]) 0x7203 (fun t => t.reg 2 == 1 && t.reg 0xF == 9) = true ∧
      ran (regs [(0xF, 1)]) 0x7FFF (fun t => t.reg 0xF == 0) = true := by decide
/-- A22. -/
theorem test_ld_register : ran (regs [(1, 0x33)]) 0x8010 (fun t => t.reg 0 == 0x33) = true := by decide
/-- A20. -/
theorem test_or :
    ran (regs [(0, 0x0F), (1, 0xF0), (0xF, 1)]) 0x8011 (fun t => t.reg 0 == 0xFF && t.reg 0xF == 1) = true := by
  decide
/-- A21. -/
theorem test_and : ran (regs [(0, 0x3C), (1, 0x0F)]) 0x8012 (fun t => t.reg 0 == 0x0C) = true := by decide
/-- A19. -/
theorem test_xor :
    ran (regs [(0, 0x3C), (0xF, 7)]) 0x8003 (fun t => t.reg 0 == 0 && t.reg 0xF == 7) = true := by decide
/-- A3, A4. -/
theorem test_add :
    ran (regs [(0, 0xFF), (1, 1)]) 0x8014 (fun t => t.reg 0 == 0 && t.reg 0xF == 1) = true ∧
      ran (regs [(0, 0x80), (1, 0x7F), (0xF, 1)]) 0x8014 (fun t => t.reg 0 == 0xFF && t.reg 0xF == 0) = true := by
  decide
/-- A5: the flag overwrites the sum 0x20. -/
theorem test_add_vf : ran (regs [(0xF, 0x90)]) 0x8FF4 (fun t => t.reg 0xF == 1) = true := by decide
/-- A6. -/
theorem test_sub_equal :
    ran (regs [(0, 0x42), (1, 0x42)]) 0x8015 (fun t => t.reg 0 == 0 && t.reg 0xF == 1) = true := by decide
/-- A8. -/
theorem test_sub_borrow :
    ran (regs [(0, 5), (1, 0xA), (0xF, 1)]) 0x8015 (fun t => t.reg 0 == 0xFB && t.reg 0xF == 0) = true := by decide
/-- A11. -/
theorem test_shr_ignores_vy :
    ran (regs [(0, 2), (1, 0xFF), (0xF, 1)]) 0x8016 (fun t => t.reg 0 == 1 && t.reg 0xF == 0) = true := by decide
/-- A12. -/
theorem test_shr_vf : ran (regs [(0xF, 3)]) 0x8F16 (fun t => t.reg 0xF == 1) = true := by decide
/-- A16. -/
theorem test_subn_borrow :
    ran (regs [(0, 1), (0xF, 1)]) 0x8017 (fun t => t.reg 0 == 0xFF && t.reg 0xF == 0) = true := by decide
/-- A17. -/
theorem test_subn :
    ran (regs [(0, 5), (1, 0xA)]) 0x8017 (fun t => t.reg 0 == 5 && t.reg 0xF == 1) = true := by decide
/-- A13. -/
theorem test_shl : ran (regs [(0, 0x80)]) 0x800E (fun t => t.reg 0 == 0 && t.reg 0xF == 1) = true := by decide
/-- A14. -/
theorem test_shl_no_carry :
    ran (regs [(0, 0x7F), (0xF, 1)]) 0x800E (fun t => t.reg 0 == 0xFE && t.reg 0xF == 0) = true := by decide
/-- A24: whatever the draw, a mask of 0 gives 0, and the next draw is another. -/
theorem test_rnd_masks :
    ∃ t, exec (.rndVxNN 0 0) (regs [(0, 7)]) = .next t ∧ t.reg 0 = 0 ∧ t.draws = 1 :=
  ⟨_, rfl, by
    show ((regs [(0, 7)]).setReg 0 (Config.drawByte 0 &&& 0)).reg 0 = 0
    simp, rfl⟩

/-! ### Display -/

/-- S2. -/
theorem test_cls :
    ran { State.reset with display := Vector.replicate 32 (Vector.replicate 64 true) } 0x00E0
      (fun t => onIn t 0 [0, 63] == [] && onIn t 31 [0, 63] == [] && t.pc == 0x202) = true := by decide
/-- D2: glyph 0 at the origin; P3: glyph A at (62, 30) wraps at both edges; D7: the coordinate is VF before it is
cleared. -/
theorem test_drw_cells :
    ran (regs [(0xF, 1)]) 0xD015 (fun t => onIn t 0 [0, 1, 3, 4, 63] == [0, 1, 3] &&
      onIn t 1 [0, 1, 2, 3, 4] == [0, 3] && onIn t 4 [0, 3, 4] == [0, 3] && onIn t 5 [0] == [] &&
      t.reg 0xF == 0) = true ∧
    ran (regsI 0x032 [(1, 0x3E), (2, 0x1E)]) 0xD125 (fun t => onIn t 30 [0, 1, 2, 61, 62, 63] == [0, 1, 62, 63] &&
      onIn t 31 [0, 1, 62, 63] == [1, 62] && onIn t 0 [0, 62] == [0, 62] && onIn t 2 [0, 1, 62] == [1, 62] &&
      onIn t 3 [1, 62] == [] && t.reg 0xF == 0) = true ∧
    ran (regs [(0xF, 0x3E)]) 0xDF11 (fun t => onIn t 0 [0, 1, 2, 61, 62, 63] == [0, 1, 62, 63] &&
      t.reg 0xF == 0) = true := by decide
/-- D6. -/
theorem test_drw_out_of_memory : raises (regsI 0xFFE []) 0xD015 (.memOutOfRange 0x200 0x1000) = true := by decide
/-! ### Keys, timers and the key-wait -/

/-- K1, K2. -/
theorem test_skp :
    ran ((regs [(0, 7)]).setKey 7 true) 0xE09E (fun t => t.pc == 0x204) = true ∧
      ran (regs [(0, 7)]) 0xE09E (fun t => t.pc == 0x202) = true := by decide
/-- K5. -/
theorem test_skp_key_16 : raises (regs [(0, 0x10)]) 0xE09E (.keyIndexOutOfRange 0x200 0x10) = true := by decide
/-- K3. -/
theorem test_sknp : ran (regs [(0, 7)]) 0xE0A1 (fun t => t.pc == 0x204) = true := by decide
/-- R192's example. -/
theorem test_ld_from_dt : ran { State.reset with dt := 0x3C } 0xF307 (fun t => t.reg 3 == 0x3C) = true := by decide
/-- R194's example. -/
theorem test_ld_to_dt : ran (regs [(3, 0x3C)]) 0xF315 (fun t => t.dt == 0x3C && t.st == 0) = true := by decide
/-- K12. -/
theorem test_ld_to_st : ran (regs [(3, 5)]) 0xF318 (fun t => t.st == 5 && t.dt == 0) = true := by decide
/-- K9: a key held before the wait does not end it. -/
theorem test_ld_key_waits :
    ran (State.reset.setKey 6 true) 0xF40A (fun t => t.wait == some 4 && t.pc == 0x200) = true := by decide
/-- K8. -/
theorem test_first_key_down_wins :
    nextIs (deliverAll [.keyDown 3, .keyDown 9] { State.reset with wait := some 4 })
      (fun t => t.reg 4 == 3 && t.pc == 0x202 && t.wait == none && t.key 3 && t.key 9) = true := by decide
/-- K10. -/
theorem test_ticks_saturate :
    nextIs (deliverAll (List.replicate 3 .tick) { State.reset with st := 2 })
        (fun t => t.dt == 0 && t.st == 0) = true ∧
      nextIs (deliver .tick { State.reset with st := 2 }) (fun t => t.dt == 0 && t.st == 1) = true := by decide
/-- R246: inputs, then the due ticks, then the Step, which a pending wait turns into nothing. -/
theorem test_host_iteration :
    hostIteration [.keyUp 2] 1 = [.keyUp 2, .tick, .step] ∧
      nextIs (deliverAll (hostIteration [.keyUp 2] 1) { State.reset with wait := some 3, dt := 9 })
        (fun t => t.wait == some 3 && t.pc == 0x200 && t.dt == 8) = true := by decide
/-- R37: what the host sees of a waiting machine. -/
theorem test_view :
    ({ State.reset with wait := some 3, st := 7 }).view =
      { display := State.reset.display, dt := 0, st := 7, waiting := true, halt := none } := by decide

/-! ### Index register and memory -/

/-- M1. -/
theorem test_ld_i : ran State.reset 0xA2F0 (fun t => t.i == 0x2F0) = true := by decide
/-- M2, M3. -/
theorem test_add_i :
    ran (regsI 0xFFF [(2, 1)]) 0xF21E (fun t => t.i == 0x1000 && t.reg 0xF == 0) = true ∧
      ran (regsI 0xFFFF [(2, 1)]) 0xF21E (fun t => t.i == 0) = true := by decide
/-- M4, M5. -/
theorem test_ld_f :
    ran (regs [(0, 0xA)]) 0xF029 (fun t => t.i == 0x32) = true ∧
      ran (regs [(0, 0xFF)]) 0xF029 (fun t => t.i == 0x4FB) = true := by decide
/-- M6. -/
theorem test_ld_b :
    ran (regsI 0x300 [(3, 254)]) 0xF333 (fun t => Memory.readAll t.mem 0x300 4 == [2, 5, 4, 0] && t.i == 0x300) =
      true := by decide
/-- M10, M11. -/
theorem test_ld_b_errors :
    raises (regsI 0x1FF []) 0xF333 (.reservedWrite 0x200 0x1FF) = true ∧
      raises (regsI 0xFFE []) 0xF333 (.memOutOfRange 0x200 0x1000) = true := by decide
/-- R215's example. -/
theorem test_store_registers :
    ran (regsI 0x300 [(0, 1), (1, 2), (2, 3), (3, 4)]) 0xF255
      (fun t => Memory.readAll t.mem 0x300 4 == [1, 2, 3, 0] && t.i == 0x300) = true := by decide
/-- M13. -/
theorem test_store_registers_reserved : raises State.reset 0xF055 (.reservedWrite 0x200 0) = true := by decide
/-- M14: the first 16 bytes of the font. -/
theorem test_load_registers :
    ran State.reset 0xFF65 (fun t => t.v.toList ==
      [0xF0, 0x90, 0x90, 0x90, 0xF0, 0x20, 0x60, 0x20, 0x20, 0x70, 0xF0, 0x10, 0xF0, 0x80, 0xF0, 0xF0] &&
      t.i == 0) = true := by decide
/-- M15. -/
theorem test_load_registers_out_of_memory :
    raises (regsI 0xFFE []) 0xF265 (.memOutOfRange 0x200 0x1000) = true := by decide

/-! ### Creation -/

/-- R271: an odd-length image is loaded whole. -/
theorem test_create_odd_image :
    (match create defaultParams [0x60, 0x05, 0x77] with
      | .created s => Memory.readAll s.mem 0x1FF 5 == [0, 0x60, 0x05, 0x77, 0] && s.pc == 0x200
      | .notCreated _ => false) = true := by decide
theorem test_create_refuses_bad_parameters :
    create { stackCap := 15, font := defaultFont } [] = .notCreated .badParameters := by decide
/-- R231: the code of an error is its row's. -/
theorem test_error_codes :
    (Error.unknownOpcode 0 0).code = 1 ∧ (Error.stackFault 0 .call).code = 2 ∧ (Error.pcOutOfRange 0).code = 3 ∧
      (Error.pcMisaligned 0).code = 4 ∧ (Error.memOutOfRange 0 0).code = 5 ∧ (Error.reservedWrite 0 0).code = 6 ∧
      (Error.keyIndexOutOfRange 0 0).code = 7 := by decide

/-! ### States that meet the hypotheses of the statements -/

/-- The creation state with a word at 0x200, whose next step runs the word. -/
def placed (w : Nat) : State := State.reset.withFetchWord 16 w

theorem ready_placed (w : Nat) : Ready (placed w) := ready_placeWord _ _

/-- CALL 0x300 at 0x200, and RET at 0x300. -/
def callAndReturn : State := { State.reset with mem := [(0x200, 0x23), (0x301, 0xEE)] }

theorem inv_callAndReturn : Inv callAndReturn where
  mem_wf := by decide
  cap_ge := by decide
  stack_length := rfl
  sp_le := by decide
  stack_even := by
    intro a h
    rw [List.eq_of_mem_replicate h]
    decide
  pc_le := by decide
  wait_pc := fun h => by cases h

theorem witness_EncodeOfDecodeIsIdentity : decode 0x6A05 = .instr (.ldVxNN 0xA 0x05) := by decide
theorem witness_FetchReadsCurrentBytesHighFirst :
    Memory.wf State.reset.mem ∧ fetchFault { State.reset with pc := 4094 } = none ∧
      fetchFault { State.reset with pc := 0 } = none := by decide
theorem witness_StepRunsTheDecodedInstruction :
    (placed 0x6A05).inbox = [] ∧ Ready (placed 0x6A05) ∧
      decode (fetchWord (placed 0x6A05)) = .instr (.ldVxNN 0xA 0x05) :=
  ⟨rfl, ready_placed _, by decide⟩
theorem witness_StepDeliversTheOldestEvent :
    State.reset.inbox = [] ∧ ({ State.reset with inbox := [.tick, .step] }).inbox = .tick :: [.step] := by decide
theorem witness_PcOutOfRangeHalts :
    State.reset.halt = none ∧ State.reset.wait = none ∧ 4095 ≤ ({ State.reset with pc := 4095 }).pc.toNat ∧
      4095 ≤ ({ State.reset with pc := 0x10FE }).pc.toNat := by decide
theorem witness_OddPcHalts :
    State.reset.halt = none ∧ State.reset.wait = none ∧ ({ State.reset with pc := 4093 }).pc.toNat < 4095 ∧
      ({ State.reset with pc := 4093 }).pc.toNat % 2 = 1 := by decide
theorem witness_UnknownOpcodeHalts :
    (Ready (placed 0x0123) ∧ fetchWord (placed 0x0123) = 0x0123 ∧ ∀ i, decode 0x0123 ≠ .instr i) ∧
      Ready (placed 0xF000) ∧ fetchWord (placed 0xF000) = 0xF000 :=
  ⟨⟨ready_placed _, by decide, fun i h => by
    rw [show decode 0x0123 = .unknown 0x0123 by decide] at h
    cases h⟩, ready_placed _, by decide⟩
theorem witness_WaitIsLiftedOnlyByKeyDown :
    ({ State.reset with wait := some 3 }).halt = none ∧ ({ State.reset with wait := some 3 }).wait = some 3 ∧
      ∀ k, Event.keyDown k ∉ [Event.step, .tick, .keyUp 2] := by decide
theorem witness_HaltedStateIsFrozen : ({ State.reset with halt := some (.pcMisaligned 1) }).halt ≠ none := by decide
theorem witness_RaisingStepChangesOnlyTheHaltRecord :
    State.reset.halt = none ∧
      deliver .step State.reset = .next { State.reset with halt := some (.unknownOpcode 0x200 0) } ∧
      ({ State.reset with halt := some (.unknownOpcode 0x200 0) }).halt = some (.unknownOpcode 0x200 0) :=
  ⟨rfl, rfl, rfl⟩
/-- For AddSetsCarry, SubSetsNoBorrow, SubnSetsNoBorrowReversed and ShiftsSetDroppedBit. -/
theorem witness_flag_operations : (0xE : Reg) ≠ vf ∧ (0x0 : Reg) ≠ vf := by decide
/-- For AddImmediateWrapsWithoutFlag's clause on VF. -/
theorem witness_AddImmediateWrapsWithoutFlag : (0x2 : Reg) ≠ vf := by decide
theorem witness_OddOrFarTargetHaltsTheNextStep :
    State.reset.halt = none ∧ State.reset.wait = none ∧
      (∃ nnn, Instr.jp 0xFFF = .jp nnn ∧ 4095 = nnn.toNat) ∧
      (∃ nnn, Instr.jp 0xFFD = .jp nnn ∧ 4093 = nnn.toNat) ∧
      ∃ nnn, Instr.jpV0 0xFFF = .jpV0 nnn ∧ 0x10FE = nnn.toNat + ((regs [(0, 0xFF)]).reg 0).toNat :=
  ⟨rfl, rfl, ⟨_, rfl, rfl⟩, ⟨_, rfl, rfl⟩, _, rfl, rfl⟩
theorem witness_ReturnPopsIntoPc :
    (({ State.reset with sp := 1 }).sp ≠ 0 ∧
      ({ State.reset with sp := 1 }).stackEntry (({ State.reset with sp := 1 }).sp - 1) = some 0) ∧
      (({ State.reset with sp := 16 }).sp ≠ 0 ∧
        ({ State.reset with sp := 16 }).stackEntry (({ State.reset with sp := 16 }).sp - 1) = some 0) ∧
      State.reset.sp = 0 := by decide
theorem witness_CallPushesReturnAddress :
    ({ State.reset with sp := 15 }).sp ≠ ({ State.reset with sp := 15 }).stackCap ∧
      ({ State.reset with sp := 15 }).sp < ({ State.reset with sp := 15 }).stack.length := by decide
theorem witness_StackFaultOnOverflowAndUnderflow :
    ({ State.reset with sp := 16 }).sp = ({ State.reset with sp := 16 }).stackCap ∧ State.reset.sp = 0 := by decide
theorem witness_CallThenReturnRoundTrip :
    ∃ s : State, s.inbox = [] ∧ Inv s ∧ Ready s ∧ s.sp < s.stackCap ∧
      decode (fetchWord s) = .instr (.call 0x300) ∧ (0x300 : Addr12).toNat % 2 = 0 ∧
      (0x300 : Addr12).toNat < 4095 ∧
      decodeBytes (Memory.read s.mem (0x300 : Addr12).toNat) (Memory.read s.mem ((0x300 : Addr12).toNat + 1)) =
        .instr .ret :=
  ⟨_, rfl, inv_callAndReturn, ⟨rfl, rfl, by decide⟩, by decide, by decide, by decide, by decide, by decide⟩
/-- Both sides of FaultExactlyOnMissingStackEntry, for each of the two instructions. -/
theorem witness_FaultExactlyOnMissingStackEntry :
    exec .ret { State.reset with sp := 17 } = .fault .noStackEntry ∧
      exec (.call 0) { State.reset with sp := 17 } = .fault .noStackEntry := ⟨rfl, rfl⟩
theorem witness_DrawXorsTheWrappedSprite :
    ((0 : Nibble).toNat = 0 ∨ (regsI 0xFFFF []).i.toNat + (0 : Nibble).toNat ≤ 4096) ∧
      ((15 : Nibble).toNat = 0 ∨ (regsI 4081 []).i.toNat + (15 : Nibble).toNat ≤ 4096) ∧
      spriteBit State.reset 0 0 1 0 0 = true ∧ spriteBit State.reset 0 0 1 4 0 = false := by decide
theorem witness_DrawOutOfMemoryHalts :
    ((15 : Nibble).toNat ≠ 0 ∧ 4096 < (regsI 4082 []).i.toNat + (15 : Nibble).toNat) ∧
      (1 : Nibble).toNat ≠ 0 ∧ 4096 < (regsI 0xFFFF []).i.toNat + (1 : Nibble).toNat := by decide
theorem witness_DrawingTwiceRestoresTheDisplay :
    (0 : Reg) ≠ vf ∧ (0xE : Reg) ≠ vf ∧
      ((5 : Nibble).toNat = 0 ∨ State.reset.i.toNat + (5 : Nibble).toNat ≤ 4096) ∧
      ∀ c r, spriteBit State.reset 0 0xE 5 c r = true → State.reset.cell c r = false :=
  ⟨by decide, by decide, by decide, fun c r _ => by simp [State.cell, State.reset, displayCell]⟩
/-- Log entry 12: on a fully-on display the first draw collides and the second does not, though the sprite has 1
bits; R171 gives this, and R176's own inference would have VF = 1 after the second draw. -/
theorem witness_second_draw_without_collision :
    nextIs (exec (.drw 0 1 1) { State.reset with display := Vector.replicate 32 (Vector.replicate 64 true) })
      (fun t => t.reg 0xF == 1 && nextIs (exec (.drw 0 1 1) t) fun u => u.reg 0xF == 0) = true := by decide
theorem witness_SkipsOnKey :
    ((regs [(5, 15)]).reg 5).toNat = (15 : Nibble).toNat ∧ (State.reset.reg 5).toNat = (0 : Nibble).toNat := by decide
theorem witness_KeyNumberAboveFifteenHalts :
    15 < ((regs [(5, 16)]).reg 5).toNat ∧ 15 < ((regs [(5, 255)]).reg 5).toNat := by decide
theorem witness_StoreBcdWritesTheDigits :
    Memory.wf State.reset.mem ∧ (0x200 ≤ (regsI 0x200 []).i.toNat ∧ (regsI 0x200 []).i.toNat + 3 ≤ 4096) ∧
      0x200 ≤ (regsI 4093 []).i.toNat ∧ (regsI 4093 []).i.toNat + 3 ≤ 4096 := by decide
theorem witness_StoreRegistersWritesV0ToVx :
    Memory.wf State.reset.mem ∧
      (0x200 ≤ (regsI 0x200 []).i.toNat ∧ (regsI 0x200 []).i.toNat + (0 : Reg).toNat < 4096) ∧
      0x200 ≤ (regsI 4080 []).i.toNat ∧ (regsI 4080 []).i.toNat + (15 : Reg).toNat < 4096 := by decide
theorem witness_LoadRegistersReadsV0ToVx :
    State.reset.i.toNat + (0 : Reg).toNat < 4096 ∧ (regsI 4080 []).i.toNat + (15 : Reg).toNat < 4096 := by decide
theorem witness_MemoryAccessErrors :
    4096 < (regsI 4094 []).i.toNat + 3 ∧ (regsI 0x1FF []).i.toNat < 0x200 ∧ State.reset.i.toNat < 0x200 ∧
      4096 ≤ (regsI 4096 []).i.toNat + (0 : Reg).toNat ∧ 4096 ≤ (regsI 4081 []).i.toNat + (15 : Reg).toNat := by
  decide
/-- For EveryStepKeepsInv and InvStateAlwaysSteps: a state that meets the invariant, and its step. -/
theorem witness_EveryStepKeepsInv :
    ∃ s t : State, Inv s ∧ step s = .next t ∧ t.pc = 0x300 ∧ t.sp = 1 :=
  ⟨_, _, inv_callAndReturn, rfl, by decide, by decide⟩
theorem witness_ReservedBytesNeverChange : ∃ t, step (placed 0xF000) = .next t := ⟨_, rfl⟩
theorem witness_InstructionsWriteOnlyTheirParts :
    (∃ t, exec .cls State.reset = .next t) ∧ ∃ t, exec .ret State.reset = .next t ∧ t.halt ≠ none :=
  ⟨⟨_, rfl⟩, _, rfl, by decide⟩
theorem witness_NoInstructionReadsSoundTimer : ∀ x, Instr.ldVxDT 3 ≠ .ldSTVx x := by
  intro x h
  cases h
theorem witness_TicksDecrementTimersToZero :
    State.reset.halt = none ∧ ({ State.reset with dt := 255, st := 1 }).halt = none ∧
      ({ State.reset with halt := some (.pcMisaligned 1) }).halt ≠ none := by decide
/-- For KeyUpClearsOnlyItsFlag, with a wait pending and halted, and KeyDownSetsOnlyItsFlag, with none. -/
theorem witness_key_events :
    ({ State.reset with wait := some 3 }).halt = none ∧
      ({ State.reset with halt := some (.pcMisaligned 1) }).halt ≠ none ∧
      State.reset.halt = none ∧ State.reset.wait = none := by decide
theorem witness_KeyDownResolvesTheWaitOnce :
    ({ State.reset with wait := some 0xF }).halt = none ∧
      ({ State.reset with wait := some 0xF }).wait = some 0xF := by decide
/-- A jump to itself at 0x200. -/
theorem idle_placed : Idle (placed 0x1200) := ⟨ready_placed _, by decide⟩
theorem witness_IdleMachineOnlyCountsDown : Idle { placed 0x1200 with dt := 255 } :=
  ⟨⟨rfl, rfl, by decide⟩, by decide⟩
/-- Ticks and Steps in turn, from an idle state whose timers are 0: the state never changes. -/
theorem witness_FairIdleRunReachesZeroTimers :
    ∃ (e : Nat → Event) (σ : Nat → State), Idle (σ 0) ∧ EventRun e σ ∧ Fair e σ := by
  refine ⟨fun n => if n % 2 = 0 then .step else .tick, fun _ => placed 0x1200, idle_placed, fun n => ?_,
    fun n => ⟨2 * n + 1, by omega, if_neg (by omega)⟩, fun n => .inl ⟨2 * n, by omega, if_pos (by omega)⟩⟩
  by_cases h : n % 2 = 0
  · simp only [if_pos h]
    rfl
  · simp only [if_neg h]
    rfl
theorem witness_CreationLoadsFontAndImage :
    defaultParams.wellFormed = true ∧ (Params.mk 17 (List.replicate 80 1)).wellFormed = true ∧
      (List.replicate 3584 (0 : Byte)).length ≤ 3584 ∧ 3584 < (List.replicate 3585 (0 : Byte)).length :=
  ⟨by decide, by decide, by rw [List.length_replicate], by rw [List.length_replicate]; decide⟩

end Sys2Proof.Tests
end

section
/-! PROOFS of the state family: outcomes. What holds of the next state of an instruction that can raise: one rule
per shared operation, from its inversion lemma, for any property of the next state. -/

namespace Sys2Proof.Machine

/-- A result's next state, when it has one, has the property. -/
def EveryNext (r : Result) (P : State → Prop) : Prop := ∀ t, r = .next t → P t

theorem EveryNext.next {t : State} {P : State → Prop} (h : P t) : EveryNext (.next t) P := by
  rintro _ ⟨⟩
  exact h

theorem EveryNext.fault {f : Fault} {P : State → Prop} : EveryNext (.fault f) P := by
  rintro _ ⟨⟩

section
variable {s : State} {P : State → Prop} (hraise : ∀ e, P { s with halt := some e })
include hraise

theorem EveryNext.storeAtI {bs : List Byte} (hn : bs.length ≠ 0)
    (hstore : s.i.toNat + bs.length ≤ Config.memSize →
      P (State.advance { s with mem := Memory.writeAll s.mem s.i.toNat bs })) :
    EveryNext (storeAtI s bs) P := by
  rcases storeAtI_cases s bs hn with ⟨h, -, hin⟩ | ⟨h, -⟩ | ⟨h, -⟩ <;> rw [h]
  · exact .next (hstore hin)
  · exact .next (hraise _)
  · exact .next (hraise _)

theorem EveryNext.skipOnKey {x : Reg} {down : Bool} (hskip : ∀ c, P (s.skipIf c)) :
    EveryNext (skipOnKey x down s) P := by
  rcases skipOnKey_cases x down s with ⟨h, -⟩ | ⟨h, -⟩ <;> rw [h]
  · exact .next (hraise _)
  · exact .next (hskip _)

theorem EveryNext.execRet
    (hpop : ∀ a, s.sp ≠ 0 → s.stackEntry (s.sp - 1) = some a → P { s with sp := s.sp - 1, pc := a }) :
    EveryNext (execRet s) P := by
  rcases execRet_cases s with ⟨-, h⟩ | ⟨hsp, a, ha, h⟩ | ⟨-, -, h⟩ <;> rw [h]
  · exact .next (hraise _)
  · exact .next (hpop a hsp ha)
  · exact .fault

theorem EveryNext.execCall {nnn : Addr12}
    (hpush : s.sp < s.stack.length → P { s with
      stack := s.stack.set s.sp (s.pc + 2), sp := s.sp + 1, pc := addrOperand nnn }) :
    EveryNext (execCall nnn s) P := by
  rcases execCall_cases nnn s with ⟨-, h⟩ | ⟨-, hsp, h⟩ | ⟨-, -, h⟩ <;> rw [h]
  · exact .next (hraise _)
  · exact .next (hpush hsp)
  · exact .fault

theorem EveryNext.execDrw {x y : Reg} {n : Nibble}
    (hdraw : P (({ s.setReg vf 0 with display := (drawn x y n s).1 }).setReg vf
      (flagByte (drawn x y n s).2)).advance) :
    EveryNext (execDrw x y n s) P := by
  rcases execDrw_cases x y n s with ⟨-, h⟩ | ⟨-, -, h⟩ <;> rw [h]
  · exact .next hdraw
  · exact .next (hraise _)

theorem EveryNext.execLdVxMem {x : Reg}
    (hload : P (s.setRegsFrom 0 (Memory.readAll s.mem s.i.toNat (x.toNat + 1))).advance) :
    EveryNext (execLdVxMem x s) P := by
  rcases execLdVxMem_cases x s with ⟨-, h⟩ | ⟨-, h⟩ <;> rw [h]
  · exact .next hload
  · exact .next (hraise _)

end

end Sys2Proof.Machine
end

section
/-! PROOFS of the state family: the invariant. It is kept by every shape of update, by every instruction, by every
event, and so by every step. -/

namespace Sys2Proof.Machine

/-- The parts the invariant speaks of, `PC` apart, are the same in both states. -/
structure SameControl (s t : State) : Prop where
  mem : t.mem = s.mem
  stack : t.stack = s.stack
  sp : t.sp = s.sp
  stackCap : t.stackCap = s.stackCap
  wait : t.wait = s.wait

theorem addrOperand_lt (nnn : Addr12) : (addrOperand nnn).toNat < 4096 := by
  rw [addrOperand_toNat]
  exact nnn.isLt

/-- The invariant's clause on a pending wait says nothing of a machine that does not wait. -/
theorem wait_pc_of_none {t : State} (h : t.wait = none) : t.wait.isSome = true → fetchFault t = none := by
  simp [h]

/-- No advance from a fetchable `PC`, which is even and below 4095, wraps (R105, R106). -/
theorem advances_of_fetchable {s : State} (hf : fetchFault s = none) :
    s.pc.toNat < 4095 ∧ s.pc.toNat % 2 = 0 ∧ (s.pc + 2).toNat = s.pc.toNat + 2 ∧
      (s.pc + 4).toNat = s.pc.toNat + 4 := by
  obtain ⟨hlt, heven⟩ := (fetchFault_eq_none s).1 hf
  exact ⟨hlt, heven, by bv_omega, by bv_omega⟩

section
variable {s t : State} (hi : Inv s)
include hi

/-- The invariant speaks of these parts and of `PC` alone. -/
theorem Inv.of_sameControl (h : SameControl s t) (hpc : t.pc = s.pc) : Inv t where
  mem_wf := h.mem ▸ hi.mem_wf
  cap_ge := h.stackCap ▸ hi.cap_ge
  stack_length := by rw [h.stack, h.stackCap, hi.stack_length]
  sp_le := by rw [h.sp, h.stackCap]; exact hi.sp_le
  stack_even := h.stack ▸ hi.stack_even
  pc_le := hpc ▸ hi.pc_le
  wait_pc := by
    rw [h.wait, fetchFault_eq_none, hpc, ← fetchFault_eq_none]
    exact hi.wait_pc

theorem Inv.raise (e : Error) : Inv { s with halt := some e } :=
  hi.of_sameControl ⟨rfl, rfl, rfl, rfl, rfl⟩ rfl

theorem Inv.setKey (k : Nibble) (b : Bool) : Inv (s.setKey k b) :=
  hi.of_sameControl ⟨rfl, rfl, rfl, rfl, rfl⟩ rfl

theorem Inv.setInbox (es : List Event) : Inv { s with inbox := es } :=
  hi.of_sameControl ⟨rfl, rfl, rfl, rfl, rfl⟩ rfl

/-- A new `PC` in the bound keeps the invariant of a machine that does not wait. -/
theorem Inv.setPc (hw : s.wait = none) {a : Word} (ha : a.toNat ≤ 0x10FE) : Inv { s with pc := a } :=
  { hi with pc_le := ha, wait_pc := wait_pc_of_none hw }

theorem Inv.setMem {m : Memory} (hm : Memory.wf m) : Inv { s with mem := m } :=
  { hi with mem_wf := hm }

theorem Inv.clearWait : Inv { s with wait := none } :=
  { hi with wait_pc := wait_pc_of_none rfl }

/-- The default advance from a fetchable `PC` (R105). -/
theorem Inv.advance (hw : s.wait = none) (hf : fetchFault s = none) : Inv s.advance := by
  obtain ⟨hlt, -, h2, -⟩ := advances_of_fetchable hf
  exact hi.setPc hw (by omega)

/-- A skip from a fetchable `PC` (R106). -/
theorem Inv.skipIf (hr : Ready s) (c : Bool) : Inv (s.skipIf c) := by
  obtain ⟨-, hw, hf⟩ := hr
  obtain ⟨hlt, -, h2, h4⟩ := advances_of_fetchable hf
  exact hi.setPc hw (by split <;> omega)

/-- A wait set at a fetchable `PC` (R193). -/
theorem Inv.setWait (hf : fetchFault s = none) (x : Reg) : Inv { s with wait := some x } :=
  { hi with wait_pc := fun _ => hf }

/-- A pop: the address was a stack entry, so it is at most 4096 (R120). -/
theorem Inv.pop (hw : s.wait = none) {a : Word} (ha : s.stackEntry (s.sp - 1) = some a) :
    Inv { s with sp := s.sp - 1, pc := a } := by
  have hle := hi.sp_le
  have hbound := (hi.stack_even a (List.mem_of_getElem? ha)).1
  have hs : Inv { s with sp := s.sp - 1 } := { hi with sp_le := by simp only; omega }
  exact hs.setPc hw (by simp only [Config.memSize] at hbound; omega)

/-- A push: the return address is `PC + 2` of a fetchable `PC`, so it is even and at most 4096 (R122). -/
theorem Inv.push (hr : Ready s) (hsp : s.sp < s.stack.length) (nnn : Addr12) :
    Inv { s with stack := s.stack.set s.sp (s.pc + 2), sp := s.sp + 1, pc := addrOperand nnn } := by
  obtain ⟨-, hw, hf⟩ := hr
  obtain ⟨hlt, heven, h2, -⟩ := advances_of_fetchable hf
  have hnnn := addrOperand_lt nnn
  have hret : (s.pc + 2).toNat ≤ 4096 ∧ (s.pc + 2).toNat % 2 = 0 := by omega
  have hs : Inv { s with stack := s.stack.set s.sp (s.pc + 2), sp := s.sp + 1 } :=
    { hi with
      stack_length := by rw [List.length_set, hi.stack_length]
      sp_le := hi.stack_length ▸ hsp
      stack_even := fun a ha => by
        rcases List.mem_or_eq_of_mem_set ha with h | rfl
        · exact hi.stack_even a h
        · exact hret }
  exact hs.setPc hw (by omega)

/-- An instruction that leaves these parts unchanged and ends in the default advance. -/
theorem Inv.straightLine (hr : Ready s) (h : SameControl s t) (hpc : t.pc = s.pc + 2) : Inv t := by
  obtain ⟨-, hw, hf⟩ := hr
  exact (hi.advance hw hf).of_sameControl ⟨h.mem, h.stack, h.sp, h.stackCap, h.wait⟩ hpc

/-- A store inside the address space. -/
theorem Inv.store (hr : Ready s) (bs : List Byte) (hin : s.i.toNat + bs.length ≤ Config.memSize) :
    Inv (State.advance { s with mem := Memory.writeAll s.mem s.i.toNat bs }) := by
  obtain ⟨-, hw, hf⟩ := hr
  exact (hi.setMem (Memory.writeAll_wf bs _ _ hin hi.mem_wf)).advance hw hf

/-- Every instruction a ready machine executes keeps the invariant. -/
theorem exec_keeps_inv (hr : Ready s) (i : Instr) : EveryNext (exec i s) Inv := by
  have ⟨_, hw, hf⟩ := hr
  cases i
  case ret => exact .execRet hi.raise fun _ _ ha => hi.pop hw ha
  case call nnn => exact .execCall hi.raise fun hsp => hi.push hr hsp nnn
  case jp nnn => exact .next (hi.setPc hw (by have := addrOperand_lt nnn; omega))
  case jpV0 nnn =>
    have hn := addrOperand_lt nnn
    have hv := (s.reg 0).isLt
    refine .next (hi.setPc hw ?_)
    rw [BitVec.toNat_add, BitVec.toNat_setWidth]
    omega
  case seVxNN | sneVxNN | seVxVy | sneVxVy => exact .next (hi.skipIf hr _)
  case skp | sknp => exact .skipOnKey hi.raise (hi.skipIf hr)
  case ldVxK x => exact .next (hi.setWait hf x)
  case ldBVx | ldMemVx => exact .storeAtI hi.raise (by simp) (hi.store hr _)
  case ldVxMem =>
    refine .execLdVxMem hi.raise (hi.straightLine hr ?_ (by simp))
    constructor <;> simp
  case drw => exact .execDrw hi.raise (hi.straightLine hr ⟨rfl, rfl, rfl, rfl, rfl⟩ rfl)
  all_goals exact .next (hi.straightLine hr ⟨rfl, rfl, rfl, rfl, rfl⟩ rfl)

theorem stepEvent_keeps_inv : EveryNext (stepEvent s) Inv := by
  rcases stepEvent_cases s with ⟨-, h⟩ | ⟨-, -, ⟨e, -, h⟩ | ⟨-, w, -, h⟩ | ⟨hr, i, -, h⟩⟩ <;> rw [h]
  · exact .next hi
  · exact .next (hi.raise e)
  · exact .next (hi.raise _)
  · exact exec_keeps_inv hi hr i

theorem tickEvent_keeps_inv : Inv (tickEvent s) := by
  unfold tickEvent
  split
  · exact hi
  · exact hi.of_sameControl ⟨rfl, rfl, rfl, rfl, rfl⟩ rfl

theorem keyUpEvent_keeps_inv (k : Nibble) : Inv (keyUpEvent k s) := by
  unfold keyUpEvent
  split
  · exact hi
  · exact hi.setKey k false

/-- A resolved wait advances `PC` from the instruction that the machine waited at (R244). -/
theorem Inv.resolveWait {x : Reg} (hx : s.wait = some x) (k : Nibble) : Inv (resolveWait x k s) := by
  have hf : fetchFault s = none := hi.wait_pc (by simp [hx])
  have hadv : Inv (State.advance { s with wait := none }) := hi.clearWait.advance rfl hf
  exact hadv.of_sameControl ⟨rfl, rfl, rfl, rfl, rfl⟩ rfl

theorem keyDownEvent_keeps_inv (k : Nibble) : Inv (keyDownEvent k s) := by
  unfold keyDownEvent
  split
  · exact hi
  · split
    next x hx => exact (hi.setKey k true).resolveWait hx k
    next => exact hi.setKey k true

theorem deliver_keeps_inv (e : Event) : EveryNext (deliver e s) Inv := by
  cases e with
  | step => exact stepEvent_keeps_inv hi
  | tick => exact .next (tickEvent_keeps_inv hi)
  | keyDown k => exact .next (keyDownEvent_keeps_inv hi k)
  | keyUp k => exact .next (keyUpEvent_keeps_inv hi k)

end

/-- A step is the delivery of one event, to a state that differs in its inbox alone (log entry 4). -/
theorem step_eq_deliver (s : State) : ∃ e es, step s = deliver e { s with inbox := es } := by
  cases h : s.inbox with
  | nil =>
    refine ⟨.step, s.inbox, ?_⟩
    show step s = stepEvent s
    rw [step, nextTransition, h]
  | cons e es => exact ⟨e, es, by rw [step, nextTransition, h]⟩

/-- Settles O48: a step is a delivery, and every delivery keeps the invariant. -/
theorem everyStepKeepsInv : Obligations.EveryStepKeepsInv := by
  intro s t hi ht
  obtain ⟨e, es, h⟩ := step_eq_deliver s
  exact deliver_keeps_inv (hi.setInbox es) e t (h ▸ ht)

/-- Settles O47: the stack entries of reset are all 0, and the other clauses are about its fixed values. -/
theorem invHoldsAtReset : Obligations.InvHoldsAtReset where
  mem_wf := Memory.wf_reset
  cap_ge := by decide
  stack_length := rfl
  sp_le := by decide
  stack_even := fun a ha => by rw [List.eq_of_mem_replicate ha]; decide
  pc_le := by decide
  wait_pc := wait_pc_of_none rfl

end Sys2Proof.Machine
end

section
/-! PROOFS of the state family: the one fault. An instruction answers a next state, or it is a CALL or RET whose
stack entry is missing, and none is missing in a state that meets the invariant (log entry 9). -/

namespace Sys2Proof.Machine

/-- The instruction is a RET or a CALL, not stopped by a StackFault, whose entry the stack array does not have. -/
def LacksStackEntry (i : Instr) (s : State) : Prop :=
  (i = .ret ∧ s.sp ≠ 0 ∧ s.stack.length ≤ s.sp - 1) ∨
    ∃ nnn, i = .call nnn ∧ s.sp ≠ s.stackCap ∧ s.stack.length ≤ s.sp

theorem storeAtI_next (s : State) (bs : List Byte) (hn : bs.length ≠ 0) : ∃ t, storeAtI s bs = .next t := by
  rcases storeAtI_cases s bs hn with ⟨h, -⟩ | ⟨h, -⟩ | ⟨h, -⟩ <;> exact ⟨_, h⟩

theorem skipOnKey_next (x : Reg) (down : Bool) (s : State) : ∃ t, skipOnKey x down s = .next t := by
  rcases skipOnKey_cases x down s with ⟨h, -⟩ | ⟨h, -⟩ <;> exact ⟨_, h⟩

theorem execDrw_next (x y : Reg) (n : Nibble) (s : State) : ∃ t, execDrw x y n s = .next t := by
  rcases execDrw_cases x y n s with ⟨-, h⟩ | ⟨-, -, h⟩ <;> exact ⟨_, h⟩

theorem execLdVxMem_next (x : Reg) (s : State) : ∃ t, execLdVxMem x s = .next t := by
  rcases execLdVxMem_cases x s with ⟨-, h⟩ | ⟨-, h⟩ <;> exact ⟨_, h⟩

theorem exec_of_lacksStackEntry {i : Instr} {s : State} (h : LacksStackEntry i s) :
    exec i s = .fault .noStackEntry := by
  rcases h with ⟨rfl, hsp, hlen⟩ | ⟨nnn, rfl, hsp, hlen⟩
  · rcases execRet_cases s with ⟨h0, -⟩ | ⟨-, a, ha, -⟩ | ⟨-, -, h⟩
    · exact absurd h0 hsp
    · rw [State.stackEntry, List.getElem?_eq_none hlen] at ha
      cases ha
    · exact h
  · rcases execCall_cases nnn s with ⟨hcap, -⟩ | ⟨-, hlt, -⟩ | ⟨-, -, h⟩
    · exact absurd hcap hsp
    · omega
    · exact h

theorem exec_next_or_lacksStackEntry (i : Instr) (s : State) :
    (∃ t, exec i s = .next t) ∨ LacksStackEntry i s := by
  cases i
  case ret =>
    rcases execRet_cases s with ⟨-, h⟩ | ⟨-, a, -, h⟩ | ⟨hsp, hnone, -⟩
    · exact .inl ⟨_, h⟩
    · exact .inl ⟨_, h⟩
    · exact .inr (.inl ⟨rfl, hsp, List.getElem?_eq_none_iff.1 hnone⟩)
  case call nnn =>
    rcases execCall_cases nnn s with ⟨-, h⟩ | ⟨-, -, h⟩ | ⟨hsp, hlen, -⟩
    · exact .inl ⟨_, h⟩
    · exact .inl ⟨_, h⟩
    · exact .inr (.inr ⟨nnn, rfl, hsp, hlen⟩)
  case skp | sknp => exact .inl (skipOnKey_next _ _ s)
  case drw x y n => exact .inl (execDrw_next x y n s)
  case ldBVx | ldMemVx => exact .inl (storeAtI_next s _ (by simp))
  case ldVxMem x => exact .inl (execLdVxMem_next x s)
  all_goals exact .inl ⟨_, rfl⟩

/-- Settles O32: where no stack entry is missing there is a next state, so no fault. -/
theorem faultExactlyOnMissingStackEntry : Obligations.FaultExactlyOnMissingStackEntry := by
  intro i s f
  constructor
  · intro hf
    rcases exec_next_or_lacksStackEntry i s with ⟨t, ht⟩ | h
    · rw [ht] at hf
      cases hf
    · rw [exec_of_lacksStackEntry h] at hf
      cases hf
      exact ⟨rfl, h⟩
  · rintro ⟨rfl, h⟩
    exact exec_of_lacksStackEntry h

/-- The stack array has `STACK_CAP` entries and `SP` is at most that (R26). -/
theorem Inv.not_lacksStackEntry {s : State} (hi : Inv s) (i : Instr) : ¬ LacksStackEntry i s := by
  have hlen := hi.stack_length
  have hle := hi.sp_le
  rintro (⟨-, hsp, h⟩ | ⟨nnn, -, hsp, h⟩) <;> omega

theorem Inv.exec_next {s : State} (hi : Inv s) (i : Instr) : ∃ t, exec i s = .next t :=
  (exec_next_or_lacksStackEntry i s).resolve_right (hi.not_lacksStackEntry i)

theorem Inv.deliver_next {s : State} (hi : Inv s) (e : Event) : ∃ t, deliver e s = .next t := by
  cases e with
  | step =>
    rcases stepEvent_cases s with ⟨-, h⟩ | ⟨-, -, ⟨e, -, h⟩ | ⟨-, w, -, h⟩ | ⟨-, i, -, h⟩⟩
    · exact ⟨_, h⟩
    · exact ⟨_, h⟩
    · exact ⟨_, h⟩
    · exact (hi.exec_next i).imp fun t ht => h.trans ht
  | tick | keyDown | keyUp => exact ⟨_, rfl⟩

/-- Settles O49: a step is a delivery, and an instruction it executes does not lack its stack entry. -/
theorem invStateAlwaysSteps : Obligations.InvStateAlwaysSteps := by
  intro s hi
  obtain ⟨e, es, h⟩ := step_eq_deliver s
  exact h ▸ (hi.setInbox es).deliver_next e

end Sys2Proof.Machine
end

section
/-! PROOFS of the state family: frames. What an instruction leaves unchanged (R36): the frame of each update of one
part, and from them the frame of every instruction. -/

namespace Sys2Proof.Machine

/-- `Frame.ofParts` for an update of named fields: only the parts that it changes need an argument, for every other
part of the two states is the same by definition. -/
theorem Frame.ofChanged {s t : State} {P : Part → Prop}
    (v : ∀ r, ¬ P (.v r) → t.reg r = s.reg r := by exact fun _ _ => rfl)
    (i : ¬ P .i → t.i = s.i := by exact fun _ => rfl)
    (pc : ¬ P .pc → t.pc = s.pc := by exact fun _ => rfl)
    (stack : ¬ P .stack → t.sp = s.sp ∧ t.stack = s.stack := by exact fun _ => ⟨rfl, rfl⟩)
    (cap : t.stackCap = s.stackCap := by exact rfl)
    (dt : ¬ P .dt → t.dt = s.dt := by exact fun _ => rfl)
    (st : ¬ P .st → t.st = s.st := by exact fun _ => rfl)
    (cell : ∀ x y, ¬ P (.cell x y) → t.cell x y = s.cell x y := by exact fun _ _ _ => rfl)
    (key : ∀ k, ¬ P (.key k) → t.key k = s.key k := by exact fun _ _ => rfl)
    (wait : ¬ P .wait → t.wait = s.wait := by exact fun _ => rfl)
    (halt : ¬ P .halt → t.halt = s.halt := by exact fun _ => rfl)
    (byte : ∀ a, ¬ P (.byte a) → Memory.read t.mem a = Memory.read s.mem a := by exact fun _ _ => rfl)
    (draws : ¬ P .draws → t.draws = s.draws := by exact fun _ => rfl)
    (inbox : ¬ P .inbox → t.inbox = s.inbox := by exact fun _ => rfl) : Frame s t P :=
  Frame.ofParts v i pc stack cap dt st cell key wait halt byte draws inbox

section
variable (s : State) {P : Part → Prop}

theorem Frame.setPc (a : Word) (hpc : P .pc) : Frame s { s with pc := a } P :=
  Frame.ofChanged (pc := absurd hpc)

theorem Frame.setI (a : Word) (hi : P .i) : Frame s { s with i := a } P :=
  Frame.ofChanged (i := absurd hi)

theorem Frame.setDt (b : Byte) (hdt : P .dt) : Frame s { s with dt := b } P :=
  Frame.ofChanged (dt := absurd hdt)

theorem Frame.setSt (b : Byte) (hst : P .st) : Frame s { s with st := b } P :=
  Frame.ofChanged (st := absurd hst)

theorem Frame.setWait (w : Option Reg) (hw : P .wait) : Frame s { s with wait := w } P :=
  Frame.ofChanged (wait := absurd hw)

theorem Frame.setDraws (n : Nat) (hd : P .draws) : Frame s { s with draws := n } P :=
  Frame.ofChanged (draws := absurd hd)

theorem Frame.setDisplay (d : Vector (Vector Bool 64) 32) (hd : ∀ x y, P (.cell x y)) :
    Frame s { s with display := d } P :=
  Frame.ofChanged (cell := fun x y => absurd (hd x y))

theorem Frame.setStack (st : List Word) (sp : Nat) (hs : P .stack) : Frame s { s with stack := st, sp := sp } P :=
  Frame.ofChanged (stack := absurd hs)

end

/-- An update with a frame and then the default advance. -/
theorem Frame.advance {s t : State} {P : Part → Prop} (h : Frame s t P) (hpc : P .pc) : Frame s t.advance P :=
  h.trans (Frame.setPc t _ hpc)

/-- Some error was raised, and nothing but its record is new; or the parts outside `P` are unchanged. -/
def RaisedOrFrame (s : State) (P : Part → Prop) (t : State) : Prop :=
  (∃ e, t = { s with halt := some e }) ∨ Frame s t P

theorem RaisedOrFrame.raise (s : State) (P : Part → Prop) (e : Error) :
    RaisedOrFrame s P { s with halt := some e } := .inl ⟨e, rfl⟩

theorem exec_raisedOrFrame (i : Instr) (s : State) : EveryNext (exec i s) (RaisedOrFrame s (writes i s)) := by
  have hraise := RaisedOrFrame.raise s (writes i s)
  cases i
  case cls =>
    exact .next (.inr ((Frame.setDisplay s _ fun x y => .inr ⟨x, y, rfl⟩).advance (.inl rfl)))
  case ret =>
    have hstack : Frame s { s with sp := s.sp - 1 } (writes .ret s) := Frame.setStack s s.stack _ (.inr rfl)
    exact .execRet hraise fun a _ _ => .inr (hstack.trans (Frame.setPc _ a (.inl rfl)))
  case call nnn =>
    have hstack : Frame s { s with stack := s.stack.set s.sp (s.pc + 2), sp := s.sp + 1 } (writes (.call nnn) s) :=
      Frame.setStack s _ _ (.inr rfl)
    exact .execCall hraise fun _ => .inr (hstack.trans (Frame.setPc _ _ (.inl rfl)))
  case jp | jpV0 => exact .next (.inr (Frame.setPc s _ rfl))
  case seVxNN | sneVxNN | seVxVy | sneVxVy => exact .next (.inr (Frame.skipIf s _ rfl))
  case skp | sknp => exact .skipOnKey hraise fun c => .inr (Frame.skipIf s c rfl)
  case addVxVy | subVxVy | shrVx | subnVxVy | shlVx =>
    exact .next (.inr (Frame.setResultAndFlag_advance s _ _ _ (.inl rfl) (.inr (.inl rfl)) (.inr (.inr rfl))))
  case rndVxNN x nn =>
    exact .next (.inr ((Frame.setReg_advance s x _ (.inl rfl) (.inr (.inl rfl))).trans
      (Frame.setDraws _ _ (.inr (.inr rfl)))))
  case drw x y n => exact .execDrw hraise (.inr (Frame.draw_advance x y n s))
  case ldVxK x => exact .next (.inr (Frame.setWait s _ rfl))
  case ldDTVx x => exact .next (.inr ((Frame.setDt s _ (.inr rfl)).advance (.inl rfl)))
  case ldSTVx x => exact .next (.inr ((Frame.setSt s _ (.inr rfl)).advance (.inl rfl)))
  case ldI | addIVx | ldFVx => exact .next (.inr ((Frame.setI s _ (.inr rfl)).advance (.inl rfl)))
  case ldBVx x =>
    exact .storeAtI hraise (by simp) fun _ =>
      .inr (Frame.store_advance s _ (.inl rfl) fun k hk => .inr ⟨k, hk, rfl⟩)
  case ldMemVx x =>
    exact .storeAtI hraise (by simp) fun _ =>
      .inr (Frame.store_advance s _ (.inl rfl) fun k hk => .inr ⟨k, by simpa using hk, rfl⟩)
  case ldVxMem x => exact .execLdVxMem hraise (.inr (Frame.load_advance s x))
  all_goals exact .next (.inr (Frame.setReg_advance s _ _ (.inl rfl) (.inr rfl)))

/-- Settles O51: each instruction's update is a composition of updates whose frames are known. -/
theorem instructionsWriteOnlyTheirParts : Obligations.InstructionsWriteOnlyTheirParts :=
  exec_raisedOrFrame

end Sys2Proof.Machine
end

section
/-! PROOFS of the state family: the sound timer. It is no input of an instruction (R27): executing after `ST` is
given another value is executing and then giving it that value. -/

namespace Sys2Proof.Machine

/-- The sound timer given another value. -/
def State.withSt (s : State) (b : Byte) : State := { s with st := b }

/-- A result with its next state's sound timer given another value. -/
def withStResult (b : Byte) : Result → Result
  | .next t => .next (t.withSt b)
  | .fault f => .fault f
  | .refused r => .refused r

section
variable (s : State) (b : Byte)

@[simp] theorem State.reg_withSt (r : Reg) : (s.withSt b).reg r = s.reg r := rfl
@[simp] theorem State.withSt_sp : (s.withSt b).sp = s.sp := rfl
@[simp] theorem State.withSt_stackCap : (s.withSt b).stackCap = s.stackCap := rfl
@[simp] theorem State.stackEntry_withSt (k : Nat) : (s.withSt b).stackEntry k = s.stackEntry k := rfl
@[simp] theorem checkReads_withSt (n : Nat) : checkReads (s.withSt b) n = checkReads s n := rfl
@[simp] theorem checkWrites_withSt (n : Nat) : checkWrites (s.withSt b) n = checkWrites s n := rfl

theorem State.setRegsFrom_withSt (k : Nat) (bs : List Byte) :
    (s.withSt b).setRegsFrom k bs = (s.setRegsFrom k bs).withSt b := by
  induction bs generalizing s k with
  | nil => rfl
  | cons c bs ih => exact ih (s.setReg _ c) (k + 1)

theorem skipOnKey_withSt (x : Reg) (down : Bool) :
    skipOnKey x down (s.withSt b) = withStResult b (skipOnKey x down s) := by
  rw [skipOnKey, skipOnKey, State.reg_withSt]
  split <;> rfl

theorem storeAtI_withSt (bs : List Byte) : storeAtI (s.withSt b) bs = withStResult b (storeAtI s bs) := by
  rw [storeAtI, storeAtI, checkWrites_withSt]
  cases checkWrites s bs.length <;> rfl

theorem execRet_withSt : execRet (s.withSt b) = withStResult b (execRet s) := by
  rw [execRet, execRet, State.stackEntry_withSt, State.withSt_sp]
  split
  · rfl
  · cases s.stackEntry (s.sp - 1) <;> rfl

theorem execCall_withSt (nnn : Addr12) : execCall nnn (s.withSt b) = withStResult b (execCall nnn s) := by
  rw [execCall, execCall, State.stackEntry_withSt, State.withSt_sp, State.withSt_stackCap]
  split
  · rfl
  · cases s.stackEntry s.sp <;> rfl

theorem execDrw_withSt (x y : Reg) (n : Nibble) :
    execDrw x y n (s.withSt b) = withStResult b (execDrw x y n s) := by
  rw [execDrw, execDrw, checkReads_withSt]
  cases checkReads s n.toNat <;> rfl

theorem execLdVxMem_withSt (x : Reg) : execLdVxMem x (s.withSt b) = withStResult b (execLdVxMem x s) := by
  rw [execLdVxMem, execLdVxMem, checkReads_withSt, State.setRegsFrom_withSt]
  cases checkReads s (x.toNat + 1) <;> rfl

theorem exec_withSt (i : Instr) (hi : ∀ x, i ≠ .ldSTVx x) :
    exec i (s.withSt b) = withStResult b (exec i s) := by
  cases i
  case ldSTVx x => exact absurd rfl (hi x)
  case ret => exact execRet_withSt s b
  case call nnn => exact execCall_withSt s b nnn
  case skp | sknp => exact skipOnKey_withSt s b _ _
  case drw x y n => exact execDrw_withSt s b x y n
  case ldBVx | ldMemVx => exact storeAtI_withSt s b _
  case ldVxMem x => exact execLdVxMem_withSt s b x
  all_goals rfl

end

/-- Settles O52: LD ST, Vx apart, an instruction commutes with giving `ST` another value. -/
theorem noInstructionReadsSoundTimer : Obligations.NoInstructionReadsSoundTimer := by
  intro i s b hi
  refine (exec_withSt s b i hi).trans ?_
  cases exec i s <;> rfl

end Sys2Proof.Machine
end

section
/-! PROOFS of the memory family: the reserved bytes. The stores alone write memory, and their check admits no address
below 0x200 (R59, R210), so no instruction, no event and no step changes a byte there. -/

namespace Sys2Proof.Machine

/-- The bytes below 0x200 are the same in both states. -/
def SameReserved (s t : State) : Prop :=
  ∀ a, a < Config.reservedEnd → Memory.read t.mem a = Memory.read s.mem a

theorem SameReserved.of_mem_eq {s t : State} (h : t.mem = s.mem) : SameReserved s t :=
  fun a _ => congrArg (Memory.read · a) h

/-- A run of bytes from 0x200 or above. -/
theorem SameReserved.store (s : State) (bs : List Byte) (h : Config.reservedEnd ≤ s.i.toNat) :
    SameReserved s (State.advance { s with mem := Memory.writeAll s.mem s.i.toNat bs }) :=
  fun _ ha => Memory.read_writeAll_of_not_mem bs s.mem (.inl (Nat.lt_of_lt_of_le ha h))

theorem storeAtI_sameReserved (s : State) (bs : List Byte) (hn : bs.length ≠ 0) :
    EveryNext (storeAtI s bs) (SameReserved s) := by
  rcases storeAtI_cases s bs hn with ⟨h, hres, -⟩ | ⟨h, -⟩ | ⟨h, -⟩ <;> rw [h]
  · exact .next (.store s bs hres)
  · exact .next (.of_mem_eq rfl)
  · exact .next (.of_mem_eq rfl)

/-- An instruction in whose frame all of memory lies (R36). -/
theorem exec_sameReserved_of_not_writes {i : Instr} {s : State} (h : ∀ a, ¬ writes i s (.byte a)) :
    EveryNext (exec i s) (SameReserved s) := by
  intro t ht
  rcases exec_raisedOrFrame i s t ht with ⟨e, rfl⟩ | hframe
  · exact .of_mem_eq rfl
  · exact fun a _ => hframe (.byte a) (h a)

theorem exec_sameReserved (i : Instr) (s : State) : EveryNext (exec i s) (SameReserved s) := by
  cases i
  case ldBVx | ldMemVx => exact storeAtI_sameReserved s _ (by simp)
  all_goals exact exec_sameReserved_of_not_writes fun a => by simp [writes, Part.IsCell]

theorem stepEvent_sameReserved (s : State) : EveryNext (stepEvent s) (SameReserved s) := by
  rcases stepEvent_cases s with ⟨-, h⟩ | ⟨-, -, ⟨e, -, h⟩ | ⟨-, w, -, h⟩ | ⟨-, i, -, h⟩⟩ <;> rw [h]
  · exact .next (.of_mem_eq rfl)
  · exact .next (.of_mem_eq rfl)
  · exact .next (.of_mem_eq rfl)
  · exact exec_sameReserved i s

@[simp] theorem tickEvent_mem (s : State) : (tickEvent s).mem = s.mem := by
  unfold tickEvent
  split <;> rfl

@[simp] theorem keyDownEvent_mem (k : Nibble) (s : State) : (keyDownEvent k s).mem = s.mem := by
  unfold keyDownEvent
  split
  · rfl
  · split <;> rfl

@[simp] theorem keyUpEvent_mem (k : Nibble) (s : State) : (keyUpEvent k s).mem = s.mem := by
  unfold keyUpEvent
  split <;> rfl

theorem deliver_sameReserved (e : Event) (s : State) : EveryNext (deliver e s) (SameReserved s) := by
  cases e with
  | step => exact stepEvent_sameReserved s
  | tick => exact .next (.of_mem_eq (tickEvent_mem s))
  | keyDown k => exact .next (.of_mem_eq (keyDownEvent_mem k s))
  | keyUp k => exact .next (.of_mem_eq (keyUpEvent_mem k s))

/-- Settles O50: a step is a delivery to a state with the same memory. -/
theorem reservedBytesNeverChange : Obligations.ReservedBytesNeverChange := by
  intro s t ht
  obtain ⟨e, es, h⟩ := step_eq_deliver s
  exact deliver_sameReserved e { s with inbox := es } t (h ▸ ht)

end Sys2Proof.Machine
end

section
/-! PROOFS of the encoding family: the formats and the decoder. The fields of a word in each format of R72, the word
in terms of its fields, and what the decoder's search of the opcode map answers. -/

namespace Sys2Proof

/-! ### Formats -/

/-- The fields of a word in the format `NNN` (R72). -/
theorem fieldsOf_addr (c : Nibble) (nnn : Addr12) :
    fieldsOf (c ++ nnn) =
      ⟨c, nnn, nnn.extractLsb' 8 4, nnn.extractLsb' 4 4, nnn.extractLsb' 0 4, nnn.extractLsb' 0 8⟩ := by
  simp only [fieldsOf, Fields.mk.injEq]
  refine ⟨?_, ?_, ?_, ?_, ?_, ?_⟩ <;> apply BitVec.eq_of_toNat_eq <;>
    simp only [BitVec.extractLsb'_toNat, Nat.shiftRight_eq_div_pow, toNat_concat] <;> omega

/-- The fields of a word in the formats `XNN` and `Xss` (R72). -/
theorem fieldsOf_byte (c x : Nibble) (nn : Byte) :
    fieldsOf (c ++ x ++ nn) = ⟨c, x ++ nn, x, nn.extractLsb' 4 4, nn.extractLsb' 0 4, nn⟩ := by
  simp only [fieldsOf, Fields.mk.injEq]
  refine ⟨?_, ?_, ?_, ?_, ?_, ?_⟩ <;> apply BitVec.eq_of_toNat_eq <;>
    simp only [BitVec.extractLsb'_toNat, Nat.shiftRight_eq_div_pow, toNat_concat] <;> omega

/-- A word is its class nibble and its address field (R72). -/
theorem addr_fieldsOf (w : Word) : (fieldsOf w).c ++ (fieldsOf w).nnn = w := by
  rw [fieldsOf_nnn, concat_addr, nibbles_fieldsOf]

/-- A word is its first two nibbles and its immediate byte (R72). -/
theorem byte_fieldsOf (w : Word) : (fieldsOf w).c ++ (fieldsOf w).x ++ (fieldsOf w).nn = w := by
  rw [fieldsOf_nn, concat_byte, nibbles_fieldsOf]

/-! ### The decoder -/

theorem decode_eq_instr_iff (w : Word) (i : Instr) :
    decode w = .instr i ↔
      ∃ r, (opcodeTable.find? fun r => r.selects (fieldsOf w)) = some r ∧ r.build (fieldsOf w) = i := by
  unfold decode
  cases opcodeTable.find? fun r => r.selects (fieldsOf w) <;> simp

/-- The word in the answer `unknown` is the word decoded (R82). -/
theorem eq_of_decode_eq_unknown {w v : Word} (h : decode w = .unknown v) : v = w := by
  unfold decode at h
  split at h <;> cases h
  rfl

end Sys2Proof
end

section
/-! PROOFS of the encoding family: the round trips. From the fields of an instruction's word the search finds its row;
and a row that selects the fields of a word builds the instruction of that word. -/

namespace Sys2Proof

/-- Settles O2: in each format the search finds the instruction's row whatever its operands are. -/
theorem decodeOfEncodeIsIdentity : Obligations.DecodeOfEncodeIsIdentity := by
  intro i
  rw [decode_eq_instr_iff]
  cases i
  case cls | ret => exact ⟨_, rfl, rfl⟩
  all_goals
    simp only [encode, fieldsOf_addr, fieldsOf_byte, fieldsOf_nibbles]
    exact ⟨_, rfl, rfl⟩

theorem nibbleMatches_iff (p : Option Nibble) (v : Nibble) : nibbleMatches p v = true ↔ p.getD v = v := by
  cases p <;> simp [nibbleMatches]

namespace OpcodeRow

/-- The word of a row's class and three nibbles, with the row's own in the places that it fixes. -/
def wordOf (r : OpcodeRow) (x y n : Nibble) : Word :=
  r.c ++ r.x.getD x ++ r.y.getD y ++ r.n.getD n

/-- A row selects only words that have the nibbles it fixes (R74). -/
theorem wordOf_of_selects {r : OpcodeRow} {w : Word} (h : r.selects (fieldsOf w) = true) :
    r.wordOf (fieldsOf w).x (fieldsOf w).y (fieldsOf w).n = w := by
  simp only [selects, Bool.and_eq_true, beq_iff_eq, nibbleMatches_iff] at h
  obtain ⟨⟨⟨hc, hx⟩, hy⟩, hn⟩ := h
  rw [wordOf, hc, hx, hy, hn, nibbles_fieldsOf]

/-- The instruction that the row builds from the fields of four nibbles has the row's word of them. -/
def BuildsWord (r : OpcodeRow) : Prop :=
  ∀ c x y n : Nibble, encode (r.build ⟨c, x ++ y ++ n, x, y, n, y ++ n⟩) = r.wordOf x y n

end OpcodeRow

theorem opcodeRowsLow_buildsWord : ∀ r ∈ opcodeRowsLow, r.BuildsWord := by
  simp only [opcodeRowsLow, List.forall_mem_cons, OpcodeRow.BuildsWord, OpcodeRow.wordOf, Option.getD_some,
    Option.getD_none]
  exact ⟨fun _ _ _ _ => rfl, fun _ _ _ _ => rfl, fun _ => concat_addr _, fun _ => concat_addr _,
    fun _ => concat_byte _, fun _ => concat_byte _, fun _ _ _ _ => rfl, fun _ => concat_byte _,
    fun _ => concat_byte _, List.forall_mem_nil _⟩

theorem opcodeRowsClass8_buildsWord : ∀ r ∈ opcodeRowsClass8, r.BuildsWord := by
  intro r hr c x y n
  fin_cases hr <;> rfl

theorem opcodeRowsMiddle_buildsWord : ∀ r ∈ opcodeRowsMiddle, r.BuildsWord := by
  simp only [opcodeRowsMiddle, List.forall_mem_cons]
  exact ⟨fun _ _ _ _ => rfl, fun _ => concat_addr _, fun _ => concat_addr _, fun _ => concat_byte _,
    fun _ _ _ _ => rfl, List.forall_mem_nil _⟩

theorem opcodeRowsHigh_buildsWord : ∀ r ∈ opcodeRowsHigh, r.BuildsWord := by
  intro r hr c x y n
  fin_cases hr
  all_goals
    simp only [OpcodeRow.wordOf, Option.getD_some, Option.getD_none]
    rw [← concat_byte]
    rfl

theorem opcodeTable_buildsWord : ∀ r ∈ opcodeTable, r.BuildsWord := by
  simp only [opcodeTable, List.forall_mem_append]
  exact ⟨⟨⟨opcodeRowsLow_buildsWord, opcodeRowsClass8_buildsWord⟩, opcodeRowsMiddle_buildsWord⟩,
    opcodeRowsHigh_buildsWord⟩

/-- Settles O3: the row that the search answers builds the instruction of its word, which is the word decoded. -/
theorem encodeOfDecodeIsIdentity : Obligations.EncodeOfDecodeIsIdentity := by
  intro w i h
  obtain ⟨r, hr, rfl⟩ := (decode_eq_instr_iff w i).1 h
  have hs : r.selects (fieldsOf w) = true := by simpa using List.find?_some hr
  have hf := fieldsOf_nibbles (fieldsOf w).c (fieldsOf w).x (fieldsOf w).y (fieldsOf w).n
  rw [nibbles_fieldsOf] at hf
  calc encode (r.build (fieldsOf w))
    _ = r.wordOf (fieldsOf w).x (fieldsOf w).y (fieldsOf w).n := by
      rw [hf]
      exact opcodeTable_buildsWord r (List.mem_of_find?_eq_some hr) _ _ _ _
    _ = w := OpcodeRow.wordOf_of_selects hs

/-- Settles O1: the words of instructions by the round trip, the others by the search. -/
theorem specWordsDecode : Obligations.SpecWordsDecode := by
  have h := decodeOfEncodeIsIdentity
  exact ⟨h (.ldVxNN 0xA 0x05), h .cls, rfl, h .ret, h (.call 0x300), h (.addVxVy 0xF 0xF), rfl, rfl,
    h (.drw 0 1 5), h (.sknp 5), h (.ldVxK 3), h (.ldMemVx 2), h (.ldVxMem 2)⟩

end Sys2Proof
end

section
/-! PROOFS of the encoding family: the illegal words. They are the words that no instruction has (R80), so by the round
trips they are the ones the decoder calls unknown. -/

namespace Sys2Proof

/-- R80's list, on the fields of a word. -/
def IllegalFields (f : Fields) : Prop :=
  (f.c = 0x0 ∧ f.nnn ∉ [0x0E0, 0x0EE]) ∨
  (f.c = 0x8 ∧ f.n ∈ [0x8, 0x9, 0xA, 0xB, 0xC, 0xD, 0xF]) ∨
  (f.c = 0xE ∧ f.nn ∉ [0x9E, 0xA1]) ∨
  (f.c = 0xF ∧ f.nn ∉ [0x07, 0x0A, 0x15, 0x18, 0x1E, 0x29, 0x33, 0x55, 0x65])

theorem illegalWord_iff (w : Word) : illegalWord w = true ↔ IllegalFields (fieldsOf w) := by
  have hw := w.isLt
  have hc (a : Nibble) : (fieldsOf w).c = a ↔ w.toNat / 4096 = a.toNat := by
    rw [← BitVec.toNat_inj, fieldsOf, toNat_field]; omega
  have hnnn (a : Addr12) : (fieldsOf w).nnn = a ↔ w.toNat % 4096 = a.toNat := by
    rw [← BitVec.toNat_inj, fieldsOf, toNat_field]; omega
  have hn (a : Nibble) : (fieldsOf w).n = a ↔ w.toNat % 16 = a.toNat := by
    rw [← BitVec.toNat_inj, fieldsOf, toNat_field]; omega
  have hnn (a : Byte) : (fieldsOf w).nn = a ↔ w.toNat % 256 = a.toNat := by
    rw [← BitVec.toNat_inj, fieldsOf, toNat_field]; omega
  have hclass0 : (fieldsOf w).c = 0x0 ∧ (fieldsOf w).nnn ∉ [0x0E0, 0x0EE] ↔
      w.toNat / 4096 = 0 ∧ ¬ (w.toNat = 0x00E0 ∨ w.toNat = 0x00EE) := by
    simp only [hc, hnnn, List.mem_cons, List.not_mem_nil, or_false, BitVec.ofNat_eq_ofNat, BitVec.toNat_ofNat]
    omega
  rw [IllegalFields, hclass0]
  simp [illegalWord, hc, hn, hnn, or_assoc]

/-- No instruction has an illegal word. -/
theorem encode_not_illegal (i : Instr) : ¬ IllegalFields (fieldsOf (encode i)) := by
  cases i
  case cls | ret => simp [encode, fieldsOf, IllegalFields]
  all_goals simp [encode, fieldsOf_addr, fieldsOf_byte, fieldsOf_nibbles, IllegalFields]

/-- Class 0 is exact (decision D20). -/
theorem exists_encode_class0 {nnn : Addr12} (h : nnn ∈ [0x0E0#12, 0x0EE#12]) : ∃ i, encode i = 0x0#4 ++ nnn := by
  fin_cases h
  · exact ⟨.cls, rfl⟩
  · exact ⟨.ret, rfl⟩

/-- Class 8, selected by N (R77). -/
theorem exists_encode_class8 (x y : Reg) {n : Nibble} (h : n ∉ [0x8#4, 0x9#4, 0xA#4, 0xB#4, 0xC#4, 0xD#4, 0xF#4]) :
    ∃ i, encode i = 0x8#4 ++ x ++ y ++ n := by
  have hmem : ∀ n : Nibble, n ∉ [0x8#4, 0x9#4, 0xA#4, 0xB#4, 0xC#4, 0xD#4, 0xF#4] →
      n ∈ [0x0#4, 0x1#4, 0x2#4, 0x3#4, 0x4#4, 0x5#4, 0x6#4, 0x7#4, 0xE#4] := by decide
  have := hmem n h
  fin_cases this
  · exact ⟨.ldVxVy x y, rfl⟩
  · exact ⟨.orVxVy x y, rfl⟩
  · exact ⟨.andVxVy x y, rfl⟩
  · exact ⟨.xorVxVy x y, rfl⟩
  · exact ⟨.addVxVy x y, rfl⟩
  · exact ⟨.subVxVy x y, rfl⟩
  · exact ⟨.shrVx x y, rfl⟩
  · exact ⟨.subnVxVy x y, rfl⟩
  · exact ⟨.shlVx x y, rfl⟩

/-- Class E, selected by NN (R78). -/
theorem exists_encode_classE (x : Reg) {nn : Byte} (h : nn ∈ [0x9E#8, 0xA1#8]) :
    ∃ i, encode i = 0xE#4 ++ x ++ nn := by
  fin_cases h
  · exact ⟨.skp x, rfl⟩
  · exact ⟨.sknp x, rfl⟩

/-- Class F, selected by NN (R79). -/
theorem exists_encode_classF (x : Reg) {nn : Byte}
    (h : nn ∈ [0x07#8, 0x0A#8, 0x15#8, 0x18#8, 0x1E#8, 0x29#8, 0x33#8, 0x55#8, 0x65#8]) :
    ∃ i, encode i = 0xF#4 ++ x ++ nn := by
  fin_cases h
  · exact ⟨.ldVxDT x, rfl⟩
  · exact ⟨.ldVxK x, rfl⟩
  · exact ⟨.ldDTVx x, rfl⟩
  · exact ⟨.ldSTVx x, rfl⟩
  · exact ⟨.addIVx x, rfl⟩
  · exact ⟨.ldFVx x, rfl⟩
  · exact ⟨.ldBVx x, rfl⟩
  · exact ⟨.ldMemVx x, rfl⟩
  · exact ⟨.ldVxMem x, rfl⟩

theorem nibble_cases : ∀ c : Nibble,
    c = 0x0 ∨ c = 0x1 ∨ c = 0x2 ∨ c = 0x3 ∨ c = 0x4 ∨ c = 0x5 ∨ c = 0x6 ∨ c = 0x7 ∨
    c = 0x8 ∨ c = 0x9 ∨ c = 0xA ∨ c = 0xB ∨ c = 0xC ∨ c = 0xD ∨ c = 0xE ∨ c = 0xF := by decide

/-- Every other word is an instruction's, class by class (R75). -/
theorem exists_encode_of_not_illegal {w : Word} (h : ¬ IllegalFields (fieldsOf w)) : ∃ i, encode i = w := by
  simp only [IllegalFields, not_or, not_and, not_not] at h
  obtain ⟨h0, h8, hE, hF⟩ := h
  have haddr := addr_fieldsOf w
  have hbyte := byte_fieldsOf w
  have hnibbles := nibbles_fieldsOf w
  rcases nibble_cases (fieldsOf w).c with
    hc | hc | hc | hc | hc | hc | hc | hc | hc | hc | hc | hc | hc | hc | hc | hc <;>
    rw [hc] at haddr hbyte hnibbles
  · exact haddr ▸ exists_encode_class0 (h0 hc)
  · exact ⟨.jp _, haddr⟩
  · exact ⟨.call _, haddr⟩
  · exact ⟨.seVxNN _ _, hbyte⟩
  · exact ⟨.sneVxNN _ _, hbyte⟩
  · exact ⟨.seVxVy _ _ _, hnibbles⟩
  · exact ⟨.ldVxNN _ _, hbyte⟩
  · exact ⟨.addVxNN _ _, hbyte⟩
  · exact hnibbles ▸ exists_encode_class8 _ _ (h8 hc)
  · exact ⟨.sneVxVy _ _ _, hnibbles⟩
  · exact ⟨.ldI _, haddr⟩
  · exact ⟨.jpV0 _, haddr⟩
  · exact ⟨.rndVxNN _ _, hbyte⟩
  · exact ⟨.drw _ _ _, hnibbles⟩
  · exact hbyte ▸ exists_encode_classE _ (hE hc)
  · exact hbyte ▸ exists_encode_classF _ (hF hc)

/-- Settles O4: the decoder knows exactly the words of instructions, by the round trips, and these are the words that
are not illegal. -/
theorem unknownWordsAreTheIllegalOnes : Obligations.UnknownWordsAreTheIllegalOnes := by
  intro w
  rw [illegalWord_iff]
  constructor
  · intro hunknown
    by_contra hlegal
    obtain ⟨i, rfl⟩ := exists_encode_of_not_illegal hlegal
    rw [decodeOfEncodeIsIdentity i] at hunknown
    cases hunknown
  · intro hillegal
    cases hd : decode w with
    | instr i => exact absurd (encodeOfDecodeIsIdentity w i hd ▸ hillegal) (encode_not_illegal i)
    | unknown v => rw [eq_of_decode_eq_unknown hd]

end Sys2Proof
end

section
/-! PROOFS of the execution-cycle family: fetch and dispatch. The word fetched, the Step event of a machine whose fetch
is an error, and the step of a ready machine (R100 to R104); with them the jumps to a target that no fetch accepts. -/

namespace Sys2Proof.Machine

/-! ### The word fetched -/

/-- The word fetched as a number, high byte first (R103). -/
theorem fetchWord_toNat (s : State) :
    (fetchWord s).toNat =
      256 * (Memory.read s.mem s.pc.toNat).toNat + (Memory.read s.mem (s.pc.toNat + 1)).toNat := by
  rw [fetchWord, wordOfBytes_toNat, Nat.mul_comm]

/-- The two bytes stored at a fetchable `PC` are the ones read there. -/
theorem read_stored_at_pc {s : State} (hm : Memory.wf s.mem) (hf : fetchFault s = none) (hi lo : Byte) :
    Memory.read (Memory.writeAll s.mem s.pc.toNat [hi, lo]) s.pc.toNat = hi ∧
      Memory.read (Memory.writeAll s.mem s.pc.toNat [hi, lo]) (s.pc.toNat + 1) = lo := by
  obtain ⟨hlt, -⟩ := (fetchFault_eq_none s).1 hf
  have hin : s.pc.toNat + [hi, lo].length ≤ Config.memSize := by
    simp only [List.length_cons, List.length_nil, Config.memSize]
    omega
  exact ⟨Memory.read_writeAll [hi, lo] s.mem _ 0 hin hm (by simp),
    Memory.read_writeAll [hi, lo] s.mem _ 1 hin hm (by simp)⟩

/-- Settles O5: the word's two bytes are read from memory as it stands. -/
theorem fetchReadsCurrentBytesHighFirst : Obligations.FetchReadsCurrentBytesHighFirst := by
  refine ⟨fetchWord_toNat, fun s hi lo hm hf => ?_⟩
  obtain ⟨hhi, hlo⟩ := read_stored_at_pc hm hf hi lo
  rw [fetchWord_toNat]
  simp only [hhi, hlo]

/-! ### The step of a ready machine -/

/-- With no event in the inbox the host delivers Step (log entry 4). -/
theorem step_of_inbox_nil {s : State} (h : s.inbox = []) : step s = stepEvent s := by
  rw [step, nextTransition, h]

/-- Settles O6: the step is a Step event, which decodes the word fetched. -/
theorem stepRunsTheDecodedInstruction : Obligations.StepRunsTheDecodedInstruction := by
  intro s i hinbox hready hdecode
  rw [step_of_inbox_nil hinbox, stepEvent_of_ready hready, hdecode]

/-! ### Errors of the fetch -/

section
variable {s : State} (hh : s.halt = none) (hw : s.wait = none)
include hh hw

theorem deliver_step_of_fetchFault {e : Error} (hf : fetchFault s = some e) :
    deliver .step s = .next { s with halt := some e } := by
  simp [deliver, stepEvent, hh, hw, hf]

/-- The range is checked first, so the `PC` may be odd (R234, decision D33). -/
theorem deliver_step_of_farPc (hpc : 4095 ≤ s.pc.toNat) :
    deliver .step s = .next { s with halt := some (.pcOutOfRange s.pc) } := by
  refine deliver_step_of_fetchFault hh hw ?_
  rcases fetchFault_cases s with ⟨-, hf⟩ | ⟨hlt, -⟩ | ⟨hlt, -⟩
  · exact hf
  all_goals omega

/-- An odd `PC` in range is misaligned (R102 by decision D16). -/
theorem deliver_step_of_oddPc (hlt : s.pc.toNat < 4095) (hodd : s.pc.toNat % 2 = 1) :
    deliver .step s = .next { s with halt := some (.pcMisaligned s.pc) } := by
  refine deliver_step_of_fetchFault hh hw ?_
  rcases fetchFault_cases s with ⟨hfar, -⟩ | ⟨-, -, hf⟩ | ⟨-, heven, -⟩
  · omega
  · exact hf
  · omega

end

/-- Settles O9: of the answers a fetch can give, an odd `PC` in range leaves this one. -/
theorem oddPcHalts : Obligations.OddPcHalts :=
  fun _ => deliver_step_of_oddPc

/-! ### Jumps -/

/-- The target of JP V0 as a number: the sum is below 65536, so it does not wrap (R127). -/
theorem jpV0Target_toNat (nnn : Addr12) (b : Byte) :
    (addrOperand nnn + b.setWidth 16).toNat = nnn.toNat + b.toNat := by
  have hnnn := nnn.isLt
  have hb := b.isLt
  rw [BitVec.toNat_add, addrOperand_toNat, BitVec.toNat_setWidth]
  omega

/-- Both jumps set `PC` to their target, and leave a running machine running (R121, R127). -/
theorem exec_jump {s : State} {i : Instr} {target : Nat}
    (h : (∃ nnn, i = .jp nnn ∧ target = nnn.toNat) ∨
      ∃ nnn, i = .jpV0 nnn ∧ target = nnn.toNat + (s.reg 0).toNat) :
    ∃ t, exec i s = .next t ∧ t.pc.toNat = target ∧ t.halt = s.halt ∧ t.wait = s.wait := by
  rcases h with ⟨nnn, rfl, rfl⟩ | ⟨nnn, rfl, rfl⟩
  · exact ⟨_, rfl, addrOperand_toNat nnn, rfl, rfl⟩
  · exact ⟨_, rfl, jpV0Target_toNat nnn (s.reg 0), rfl, rfl⟩

/-- Settles O27: the jump leaves the machine running, with the target as its `PC`. -/
theorem oddOrFarTargetHaltsTheNextStep : Obligations.OddOrFarTargetHaltsTheNextStep := by
  intro s i target hh hw hjump
  obtain ⟨t, hexec, rfl, hhalt, hwait⟩ := exec_jump hjump
  rw [← hhalt] at hh
  rw [← hwait] at hw
  exact ⟨t, hexec, deliver_step_of_farPc hh hw, deliver_step_of_oddPc hh hw⟩

end Sys2Proof.Machine
end

section
/-! PROOFS of the execution-cycle family: raising. A Step event either keeps the halt record, or changes it alone and
puts an error there that carries where it arose (R107, R108, R230). -/

namespace Sys2Proof.Machine

/-- The error carries the `PC` at fetch; a stack fault carries the stack pointer instead. -/
def ArisesAt (s : State) (e : Error) : Prop :=
  errorPc e = some s.pc ∨ e = .stackFault s.sp .call ∨ e = .stackFault s.sp .return

/-- The halt record is kept, or it alone is changed, to an error that arises in `s`. -/
def HaltKeptOrRaised (s t : State) : Prop :=
  t.halt = s.halt ∨ ∃ e, t = { s with halt := some e } ∧ ArisesAt s e

theorem EveryNext.raised {s : State} {e : Error} (h : ArisesAt s e) :
    EveryNext (s.raise e) (HaltKeptOrRaised s) :=
  .next (.inr ⟨e, rfl, h⟩)

theorem execRet_haltKeptOrRaised (s : State) : EveryNext (execRet s) (HaltKeptOrRaised s) := by
  rcases execRet_cases s with ⟨hsp, h⟩ | ⟨-, a, -, h⟩ | ⟨-, -, h⟩ <;> rw [h]
  · exact .raised (.inr (.inr (by rw [hsp])))
  · exact .next (.inl rfl)
  · exact .fault

theorem execCall_haltKeptOrRaised (nnn : Addr12) (s : State) :
    EveryNext (execCall nnn s) (HaltKeptOrRaised s) := by
  rcases execCall_cases nnn s with ⟨-, h⟩ | ⟨-, -, h⟩ | ⟨-, -, h⟩ <;> rw [h]
  · exact .raised (.inr (.inl rfl))
  · exact .next (.inl rfl)
  · exact .fault

theorem skipOnKey_haltKeptOrRaised (x : Reg) (down : Bool) (s : State) :
    EveryNext (skipOnKey x down s) (HaltKeptOrRaised s) := by
  rcases skipOnKey_cases x down s with ⟨h, -⟩ | ⟨h, -⟩ <;> rw [h]
  · exact .raised (.inl rfl)
  · exact .next (.inl rfl)

theorem execDrw_haltKeptOrRaised (x y : Reg) (n : Nibble) (s : State) :
    EveryNext (execDrw x y n s) (HaltKeptOrRaised s) := by
  rcases execDrw_cases x y n s with ⟨-, h⟩ | ⟨-, -, h⟩ <;> rw [h]
  · exact .next (.inl rfl)
  · exact .raised (.inl rfl)

theorem storeAtI_haltKeptOrRaised (s : State) (bs : List Byte) (hn : bs.length ≠ 0) :
    EveryNext (storeAtI s bs) (HaltKeptOrRaised s) := by
  rcases storeAtI_cases s bs hn with ⟨h, -⟩ | ⟨h, -⟩ | ⟨h, -⟩ <;> rw [h]
  · exact .next (.inl rfl)
  · exact .raised (.inl rfl)
  · exact .raised (.inl rfl)

theorem execLdVxMem_haltKeptOrRaised (x : Reg) (s : State) :
    EveryNext (execLdVxMem x s) (HaltKeptOrRaised s) := by
  rcases execLdVxMem_cases x s with ⟨-, h⟩ | ⟨-, h⟩ <;> rw [h]
  · exact .next (.inl (by simp))
  · exact .raised (.inl rfl)

theorem exec_haltKeptOrRaised (i : Instr) (s : State) : EveryNext (exec i s) (HaltKeptOrRaised s) := by
  cases i
  case ret => exact execRet_haltKeptOrRaised s
  case call nnn => exact execCall_haltKeptOrRaised nnn s
  case skp | sknp => exact skipOnKey_haltKeptOrRaised _ _ s
  case drw x y n => exact execDrw_haltKeptOrRaised x y n s
  case ldBVx | ldMemVx => exact storeAtI_haltKeptOrRaised s _ (by simp)
  case ldVxMem x => exact execLdVxMem_haltKeptOrRaised x s
  all_goals exact .next (.inl rfl)

/-- Both errors of a fetch carry its `PC` (R102). -/
theorem arisesAt_of_fetchFault {s : State} {e : Error} (hf : fetchFault s = some e) : ArisesAt s e := by
  rcases fetchFault_cases s with ⟨-, h⟩ | ⟨-, -, h⟩ | ⟨-, -, h⟩ <;> rw [h] at hf <;> cases hf
  · exact .inl rfl
  · exact .inl rfl

theorem stepEvent_haltKeptOrRaised (s : State) : EveryNext (stepEvent s) (HaltKeptOrRaised s) := by
  rcases stepEvent_cases s with ⟨-, h⟩ | ⟨-, -, ⟨e, hf, h⟩ | ⟨-, w, -, h⟩ | ⟨-, i, -, h⟩⟩ <;> rw [h]
  · exact .next (.inl rfl)
  · exact .raised (arisesAt_of_fetchFault hf)
  · exact .raised (.inl rfl)
  · exact exec_haltKeptOrRaised i s

/-- Settles O13: a running machine whose Step sets the halt record has not kept it, so it has raised. -/
theorem raisingStepChangesOnlyTheHaltRecord : Obligations.RaisingStepChangesOnlyTheHaltRecord := by
  intro s t e hh hstep he
  rcases stepEvent_haltKeptOrRaised s t hstep with hkept | ⟨e', rfl, harises⟩
  · rw [hkept, hh] at he
    cases he
  · cases he
    exact ⟨rfl, harises⟩

end Sys2Proof.Machine
end

section
/-! PROOFS of the execution-cycle family: the key-wait. Every event but a KeyDown leaves a waiting machine as it was,
the timers and the key flags apart, and so does every series of such events (R101, R240, R243). -/

namespace Sys2Proof.Machine

/-- The part is a timer or a key flag. -/
def Part.IsTimerOrKey (p : Part) : Prop := p = .dt ∨ p = .st ∨ ∃ k, p = .key k

theorem tickEvent_frame (s : State) : Frame s (tickEvent s) Part.IsTimerOrKey := by
  unfold tickEvent
  split
  · exact .refl s _
  · exact Frame.ofChanged (dt := absurd (.inl rfl)) (st := absurd (.inr (.inl rfl)))

theorem keyUpEvent_frame (k : Nibble) (s : State) : Frame s (keyUpEvent k s) Part.IsTimerOrKey := by
  unfold keyUpEvent
  split
  · exact .refl s _
  · exact Frame.setKey s k false (.inr (.inr ⟨k, rfl⟩))

/-- A frame of the timers and key flags keeps the pending wait. -/
theorem Frame.wait_eq {s t : State} (h : Frame s t Part.IsTimerOrKey) : t.wait = s.wait :=
  h .wait (by simp [Part.IsTimerOrKey])

theorem deliver_of_waiting {s : State} (hw : s.wait.isSome = true) {e : Event} (he : ∀ k, e ≠ .keyDown k) :
    ∃ t, deliver e s = .next t ∧ Frame s t Part.IsTimerOrKey := by
  cases e with
  | step => exact ⟨s, stepEvent_of_waiting hw, .refl s _⟩
  | tick => exact ⟨_, rfl, tickEvent_frame s⟩
  | keyDown k => exact absurd rfl (he k)
  | keyUp k => exact ⟨_, rfl, keyUpEvent_frame k s⟩

theorem deliverAll_of_waiting {s : State} (hw : s.wait.isSome = true) {es : List Event}
    (hes : ∀ k, Event.keyDown k ∉ es) :
    ∃ t, deliverAll es s = .next t ∧ Frame s t Part.IsTimerOrKey := by
  induction es generalizing s with
  | nil => exact ⟨s, rfl, .refl s _⟩
  | cons e es ih =>
    have he : ∀ k, e ≠ .keyDown k := fun k h => hes k (h ▸ List.mem_cons_self)
    obtain ⟨t, ht, hst⟩ := deliver_of_waiting hw he
    obtain ⟨u, hu, htu⟩ := ih (hst.wait_eq ▸ hw) fun k hk => hes k (List.mem_cons_of_mem e hk)
    exact ⟨u, (deliverAll_cons_of_next ht).trans hu, hst.trans htu⟩

/-- A KeyDown resolves the pending wait, whether or not its key is down already (R242, decision D29). -/
theorem keyDownEvent_of_waiting {s : State} {x : Reg} (hh : s.halt = none) (hw : s.wait = some x) (k : Nibble) :
    keyDownEvent k s = resolveWait x k (s.setKey k true) := by
  simp [keyDownEvent, hh, hw]

@[simp] theorem resolveWait_wait (x : Reg) (k : Nibble) (s : State) : (resolveWait x k s).wait = none := rfl

/-- Settles O11, by induction on the events, each of which keeps the wait. -/
theorem waitIsLiftedOnlyByKeyDown : Obligations.WaitIsLiftedOnlyByKeyDown := by
  intro s x hh hw
  have hwaiting : s.wait.isSome = true := by simp [hw]
  refine ⟨stepEvent_of_waiting hwaiting, fun es hes => ?_, fun k => ?_⟩
  · obtain ⟨t, ht, hframe⟩ := deliverAll_of_waiting hwaiting hes
    exact ⟨t, ht, hframe.wait_eq.trans hw, hframe⟩
  · exact ⟨_, rfl, by rw [keyDownEvent_of_waiting hh hw, resolveWait_wait]⟩

end Sys2Proof.Machine
end

section
/-! PROOFS of the control-flow family: skips and jumps. An instruction that leaves the halt record as it was has not
raised, so it keeps its frame (R36); with it the skips and the jumps, each from the state it answers (R121, R123 to
R127). -/

namespace Sys2Proof.Machine

/-- A raise that leaves the halt record as it was has changed nothing at all. -/
theorem RaisedOrFrame.frame_of_halt_eq {s t : State} {P : Part → Prop} (h : RaisedOrFrame s P t)
    (hhalt : t.halt = s.halt) : Frame s t P := by
  rcases h with ⟨e, rfl⟩ | hframe
  · have hsame : { s with halt := some e } = s := congrArg (fun h => { s with halt := h }) hhalt
    rw [hsame]
    exact .refl s P
  · exact hframe

theorem exec_frame_of_halt_eq {i : Instr} {s t : State} (h : exec i s = .next t) (hhalt : t.halt = s.halt) :
    Frame s t (writes i s) :=
  (exec_raisedOrFrame i s t h).frame_of_halt_eq hhalt

/-! ### Skips -/

/-- An instruction that answers a skip on a test of `p` advances by one instruction more where `p` holds, and keeps its
frame (R106). -/
theorem exec_skip {i : Instr} {s : State} {c : Bool} {p : Prop} [Decidable p]
    (h : exec i s = .next (s.skipIf c)) (hc : c = true ↔ p) :
    ∃ t, exec i s = .next t ∧ t.pc = (if p then s.pc + 4 else s.pc + 2) ∧ Frame s t (writes i s) :=
  ⟨s.skipIf c, h, if_congr hc rfl rfl, exec_frame_of_halt_eq h (State.skipIf_halt s c)⟩

/-- Settles O23: the tests are `==` and `!=` of the register and the literal. -/
theorem skipsOnImmediate : Obligations.SkipsOnImmediate :=
  fun _ _ _ => ⟨exec_skip rfl beq_iff_eq, exec_skip rfl bne_iff_ne⟩

/-- Settles O24: the tests are `==` and `!=` of the two registers, whatever N is. -/
theorem skipsOnRegisters : Obligations.SkipsOnRegisters :=
  fun _ _ _ _ => ⟨exec_skip rfl beq_iff_eq, exec_skip rfl bne_iff_ne⟩

/-! ### Jumps -/

/-- Settles O25: JP is the jump to the address itself. -/
theorem jumpSetsPc : Obligations.JumpSetsPc := by
  intro s nnn
  obtain ⟨t, hexec, hpc, hhalt, -⟩ := exec_jump (s := s) (.inl ⟨nnn, rfl, rfl⟩)
  exact ⟨t, hexec, hpc, exec_frame_of_halt_eq hexec hhalt⟩

/-- Settles O26: JP V0 is the jump to the unreduced sum. -/
theorem jumpWithOffsetAddsV0 : Obligations.JumpWithOffsetAddsV0 := by
  intro s nnn
  obtain ⟨t, hexec, hpc, hhalt, -⟩ := exec_jump (s := s) (.inr ⟨nnn, rfl, rfl⟩)
  exact ⟨t, hexec, hpc, exec_frame_of_halt_eq hexec hhalt⟩

end Sys2Proof.Machine
end

section
/-! PROOFS of the control-flow family: CALL and RET. What each does to the stack, and the round trip of a CALL whose
target is a RET (R120, R122, R129). -/

namespace Sys2Proof.Machine

/-- RET with an entry on top pops it (R120). -/
theorem exec_ret_of_top {s : State} {a : Word} (hsp : s.sp ≠ 0) (ha : s.stackEntry (s.sp - 1) = some a) :
    exec .ret s = .next { s with sp := s.sp - 1, pc := a } := by
  rcases execRet_cases s with ⟨h0, -⟩ | ⟨-, b, hb, h⟩ | ⟨-, hnone, -⟩
  · exact absurd h0 hsp
  · cases ha.symm.trans hb
    exact h
  · cases ha.symm.trans hnone

/-- RET with an empty stack raises (R120). -/
theorem exec_ret_of_empty {s : State} (hsp : s.sp = 0) :
    exec .ret s = .next { s with halt := some (.stackFault 0 .return) } := by
  rcases execRet_cases s with ⟨-, h⟩ | ⟨h0, -⟩ | ⟨h0, -⟩
  · exact h
  · exact absurd hsp h0
  · exact absurd hsp h0

/-- CALL with room on the stack pushes the return address (R122, decision D21). -/
theorem exec_call_of_room {s : State} (nnn : Addr12) (hcap : s.sp ≠ s.stackCap) (hlen : s.sp < s.stack.length) :
    exec (.call nnn) s =
      .next { s with stack := s.stack.set s.sp (s.pc + 2), sp := s.sp + 1, pc := addrOperand nnn } := by
  rcases execCall_cases nnn s with ⟨hfull, -⟩ | ⟨-, -, h⟩ | ⟨-, hle, -⟩
  · exact absurd hfull hcap
  · exact h
  · omega

/-- Settles O28: RET with an entry on top pops it, and with an empty stack it raises. -/
theorem returnPopsIntoPc : Obligations.ReturnPopsIntoPc := by
  refine ⟨fun s a hsp ha => ?_, fun s => exec_ret_of_empty⟩
  have hexec := exec_ret_of_top hsp ha
  exact ⟨_, hexec, rfl, rfl, rfl, exec_frame_of_halt_eq hexec rfl⟩

/-- Settles O29: the entry at `SP` is set, and setting it leaves the others. -/
theorem callPushesReturnAddress : Obligations.CallPushesReturnAddress := by
  intro s nnn hcap hlen
  have hexec := exec_call_of_room nnn hcap hlen
  exact ⟨_, hexec, addrOperand_toNat nnn, rfl, List.getElem?_set_self hlen,
    fun k hk => List.getElem?_set_ne hk.symm, exec_frame_of_halt_eq hexec rfl⟩

/-! ### The round trip -/

/-- The part is `PC` or the stack: what CALL and RET write (R36). -/
def Part.IsPcOrStack (p : Part) : Prop := p = .pc ∨ p = .stack

section
variable {s t : State} (hframe : Frame s t Part.IsPcOrStack)
include hframe

/-- After writes of `PC` and the stack a machine is as ready as before, where `PC` can be fetched at. -/
theorem Frame.ready_of_fetchable (hr : Ready s) (hlt : t.pc.toNat < 4095) (heven : t.pc.toNat % 2 = 0) : Ready t := by
  obtain ⟨hhalt, hwait, -⟩ := hr
  have hhalt' : t.halt = s.halt := hframe .halt (by simp [Part.IsPcOrStack])
  have hwait' : t.wait = s.wait := hframe .wait (by simp [Part.IsPcOrStack])
  exact ⟨hhalt'.trans hhalt, hwait'.trans hwait, (fetchFault_eq_none t).2 ⟨hlt, heven⟩⟩

/-- After writes of `PC` and the stack the word fetched is read from the memory before them. -/
theorem Frame.fetchWord_eq :
    fetchWord t = wordOfBytes (Memory.read s.mem t.pc.toNat) (Memory.read s.mem (t.pc.toNat + 1)) := by
  have hbyte (a : Nat) : Memory.read t.mem a = Memory.read s.mem a :=
    hframe (.byte a) (by simp [Part.IsPcOrStack])
  rw [fetchWord, hbyte, hbyte]

theorem Frame.inbox_eq : t.inbox = s.inbox :=
  hframe .inbox (by simp [Part.IsPcOrStack])

end

/-- Settles O31: CALL leaves a ready machine at the RET, with the return address on top of its stack; RET pops it, and
leaves the stack array as CALL made it. -/
theorem callThenReturnRoundTrip : Obligations.CallThenReturnRoundTrip := by
  intro s nnn hinbox hinv hready hroom hcall heven hlt hret
  have hlen : s.sp < s.stack.length := hinv.stack_length ▸ hroom
  obtain ⟨t, hst, hpc, hsp, htop, hrest, hframe⟩ := callPushesReturnAddress s nnn hroom.ne hlen
  have hready' : Ready t := hframe.ready_of_fetchable hready (hpc ▸ hlt) (hpc ▸ heven)
  have hret' : decode (fetchWord t) = .instr .ret := by
    rw [hframe.fetchWord_eq, hpc]
    exact hret
  have htop' : t.stackEntry (t.sp - 1) = some (s.pc + 2) := by rw [hsp, Nat.add_sub_cancel, htop]
  obtain ⟨u, htu, hupc, husp, hustack, hframe'⟩ := returnPopsIntoPc.1 t _ (by omega) htop'
  refine ⟨t, u, ?_, ?_, hpc, hupc, by omega, fun k hk => ?_, hframe.trans hframe'⟩
  · rw [stepRunsTheDecodedInstruction s _ hinbox hready hcall, hst]
  · rw [stepRunsTheDecodedInstruction t _ (hframe.inbox_eq.trans hinbox) hready' hret', htu]
  · rw [← hrest k hk, State.stackEntry, State.stackEntry, hustack]

end Sys2Proof.Machine
end

section
/-! PROOFS of the register and ALU family: the instructions that write one register. An instruction that answers a
register write and the advance keeps its frame (R36); with it the loads, the logic operations, ADD Vx, NN and RND
(R140, R141, R143 to R146, R152). -/

namespace Sys2Proof.Machine

theorem State.reg_setReg_self (s : State) (x : Reg) (b : Byte) : (s.setReg x b).reg x = b := by
  rw [State.reg_setReg, if_pos rfl]

/-- An instruction that answers a register write and the advance, with its frame. -/
theorem exec_setReg {i : Instr} {s : State} {x : Reg} {b : Byte} (h : exec i s = .next (s.setReg x b).advance) :
    ∃ t, exec i s = .next t ∧ t.reg x = b ∧ t.pc = s.pc + 2 ∧ Frame s t (writes i s) :=
  ⟨_, h, State.reg_setReg_self s x b, rfl, exec_frame_of_halt_eq h rfl⟩

/-- Settles O14: LD Vx, NN writes the literal. -/
theorem loadImmediateSetsRegister : Obligations.LoadImmediateSetsRegister :=
  fun _ _ _ => ⟨rfl, exec_setReg rfl⟩

/-- Settles O15: the sum is written to one register, so VF is in the frame where it is not the destination. -/
theorem addImmediateWrapsWithoutFlag : Obligations.AddImmediateWrapsWithoutFlag := by
  intro s x nn
  obtain ⟨t, hexec, hreg, hpc, hframe⟩ := exec_setReg (i := .addVxNN x nn) (s := s) rfl
  have hvf (hx : x ≠ vf) : t.reg vf = s.reg vf := hframe (.v vf) (by simp [writes, hx.symm])
  exact ⟨t, hexec, by rw [hreg, sum8_toNat], hvf, hpc, hframe⟩

/-- Settles O16: each of the four writes its result to one register. -/
theorem moveAndLogicSetOnlyTheirRegister : Obligations.MoveAndLogicSetOnlyTheirRegister :=
  fun _ _ _ => ⟨exec_setReg rfl, exec_setReg rfl, exec_setReg rfl, exec_setReg rfl⟩

/-- Settles O22: the register write is the masked byte whatever the byte is, and the counter of draws is advanced
after it. -/
theorem randomByteIsMasked : Obligations.RandomByteIsMasked :=
  fun s x nn => ⟨_, rfl, State.reg_setReg_self s x (Config.drawByte s.draws &&& nn), rfl, rfl,
    exec_frame_of_halt_eq (i := .rndVxNN x nn) rfl rfl⟩

end Sys2Proof.Machine
end

section
/-! PROOFS of the register and ALU family: the instructions that write a result and its flag. Each of the five answers
the result in its register, then the flag in VF, so that with X = F the flag stays (R142, R147 to R151, decision D6). -/

namespace Sys2Proof.Machine

/-! ### Results and flags as numbers -/

/-- The difference modulo 256 is the one of the integers (R148, R150). -/
theorem diff8_toInt (a b : Byte) : ((diff8 a b).toNat : Int) = (a.toNat - b.toNat : Int) % 256 := by
  have hb := b.isLt
  rw [diff8_toNat]
  omega

theorem carry8_iff (a b : Byte) : carry8 a b = true ↔ 255 < a.toNat + b.toNat := decide_eq_true_iff

theorem noBorrow8_iff (a b : Byte) : noBorrow8 a b = true ↔ b.toNat ≤ a.toNat := decide_eq_true_iff

theorem lowBit8_iff (a : Byte) : lowBit8 a = true ↔ a.toNat % 2 = 1 := by
  rw [lowBit8_eq, decide_eq_true_iff]

theorem highBit8_iff (a : Byte) : highBit8 a = true ↔ 128 ≤ a.toNat := by
  rw [highBit8_eq, decide_eq_true_iff]

/-! ### The instructions -/

theorem State.reg_result_setResultAndFlag (s : State) {x : Reg} (b : Byte) (c : Bool) (hx : x ≠ vf) :
    (s.setResultAndFlag x b c).reg x = b := by
  rw [State.reg_setResultAndFlag, if_neg hx, if_pos rfl]

/-- The flag stays whatever the result's register is (R142, decision D6). -/
theorem State.reg_vf_setResultAndFlag (s : State) (x : Reg) (b : Byte) {c : Bool} {p : Prop} [Decidable p]
    (hc : c = true ↔ p) : (s.setResultAndFlag x b c).reg vf = if p then 1 else 0 := by
  rw [State.reg_setResultAndFlag, if_pos rfl, flagByte]
  exact if_congr hc rfl rfl

section
variable {i : Instr} {s : State} {x : Reg} {b : Byte} {c : Bool} {p : Prop} [Decidable p]
  (h : exec i s = .next (s.setResultAndFlag x b c).advance) (hc : c = true ↔ p)
include h hc

/-- An instruction that answers a result and its flag leaves the flag in VF, whatever its destination is. -/
theorem exec_flag :
    ∃ t, exec i s = .next t ∧ t.reg vf = (if p then 1 else 0) ∧ t.pc = s.pc + 2 ∧ Frame s t (writes i s) :=
  ⟨_, h, s.reg_vf_setResultAndFlag x b hc, rfl, exec_frame_of_halt_eq h rfl⟩

/-- Where the destination is not VF, it leaves the result there beside the flag. -/
theorem exec_resultAndFlag (hx : x ≠ vf) :
    ∃ t, exec i s = .next t ∧ t.reg x = b ∧ t.reg vf = (if p then 1 else 0) ∧ t.pc = s.pc + 2 ∧
      Frame s t (writes i s) :=
  ⟨_, h, s.reg_result_setResultAndFlag b c hx, s.reg_vf_setResultAndFlag x b hc, rfl, exec_frame_of_halt_eq h rfl⟩

end

/-- Settles O17: the flag is the carry of the values before the instruction. -/
theorem addSetsCarry : Obligations.AddSetsCarry := by
  intro s x y hx
  obtain ⟨t, hexec, hresult, hrest⟩ := exec_resultAndFlag (i := .addVxVy x y) (s := s) rfl (carry8_iff _ _) hx
  exact ⟨t, hexec, by rw [hresult, sum8_toNat], hrest⟩

/-- Settles O18: the flag is that the subtrahend, V[Y], does not exceed V[X]. -/
theorem subSetsNoBorrow : Obligations.SubSetsNoBorrow := by
  intro s x y hx
  obtain ⟨t, hexec, hresult, hrest⟩ := exec_resultAndFlag (i := .subVxVy x y) (s := s) rfl (noBorrow8_iff _ _) hx
  exact ⟨t, hexec, by rw [hresult, diff8_toInt], hrest⟩

/-- Settles O19: the subtrahend is V[X] here (decision D5). -/
theorem subnSetsNoBorrowReversed : Obligations.SubnSetsNoBorrowReversed := by
  intro s x y hx
  obtain ⟨t, hexec, hresult, hrest⟩ := exec_resultAndFlag (i := .subnVxVy x y) (s := s) rfl (noBorrow8_iff _ _) hx
  exact ⟨t, hexec, by rw [hresult, diff8_toInt], hrest⟩

/-- Settles O20: a right shift drops the parity, a left shift the bit that counts 128. -/
theorem shiftsSetDroppedBit : Obligations.ShiftsSetDroppedBit := by
  intro s x y hx
  constructor
  · obtain ⟨t, hexec, hresult, hrest⟩ := exec_resultAndFlag (i := .shrVx x y) (s := s) rfl (lowBit8_iff _) hx
    exact ⟨t, hexec, by rw [hresult, half8_toNat], hrest⟩
  · obtain ⟨t, hexec, hresult, hrest⟩ := exec_resultAndFlag (i := .shlVx x y) (s := s) rfl (highBit8_iff _) hx
    exact ⟨t, hexec, by rw [hresult, double8_toNat, Nat.mul_comm], hrest⟩

/-- Settles O21: the flag is written after the result, so it stays in VF. -/
theorem flagOverwritesResultInVF : Obligations.FlagOverwritesResultInVF :=
  fun _ _ => ⟨exec_flag rfl (carry8_iff _ _), exec_flag rfl (noBorrow8_iff _ _), exec_flag rfl (noBorrow8_iff _ _),
    exec_flag rfl (lowBit8_iff _), exec_flag rfl (highBit8_iff _)⟩

end Sys2Proof.Machine
end

section
/-! PROOFS of the display family: CLS, and one drawing. What CLS leaves on the display (R170); what DRW answers in
memory and beyond it, and what its drawing leaves in the cells and in VF (R171 to R175, R210). -/

namespace Sys2Proof.Machine

/-- Settles O33: every cell of the buffer CLS answers is off. -/
theorem clearScreenTurnsEveryCellOff : Obligations.ClearScreenTurnsEveryCellOff := by
  refine ⟨rfl, fun s => ⟨_, rfl, fun x y => ?_, rfl, rfl, exec_frame_of_halt_eq (i := .cls) rfl rfl⟩⟩
  simp [State.cell, displayCell]

/-! ### What DRW answers -/

/-- DRW with a sprite byte out of memory raises at the smallest such address (R210, decision D17). -/
theorem exec_drw_of_outOfMemory {s : State} (x y : Reg) {n : Nibble} (hn : n.toNat ≠ 0)
    (hout : Config.memSize < s.i.toNat + n.toNat) :
    exec (.drw x y n) s = .next { s with halt := some (.memOutOfRange s.pc (max s.i.toNat Config.memSize)) } := by
  rcases execDrw_cases x y n s with ⟨hin, -⟩ | ⟨-, -, h⟩
  · omega
  · exact h

/-- DRW with its sprite in memory makes its drawing, with the flag in VF. -/
theorem exec_drw_of_inMemory {s : State} (x y : Reg) {n : Nibble}
    (hin : n.toNat = 0 ∨ s.i.toNat + n.toNat ≤ Config.memSize) :
    exec (.drw x y n) s = .next (({ s.setReg vf 0 with display := (drawn x y n s).1 }).setReg vf
      (flagByte (drawn x y n s).2)).advance := by
  rcases execDrw_cases x y n s with ⟨-, h⟩ | ⟨hn, hout, -⟩
  · exact h
  · omega

/-- Settles O35: the record carries the smallest address out of memory. -/
theorem drawOutOfMemoryHalts : Obligations.DrawOutOfMemoryHalts :=
  fun _ x y _ => exec_drw_of_outOfMemory x y

/-! ### What a drawing leaves -/

theorem flagByte_eq_one_iff (b : Bool) : flagByte b = 1 ↔ b = true := by
  cases b <;> decide

theorem flagByte_eq_zero_or_one (b : Bool) : flagByte b = 0 ∨ flagByte b = 1 := by
  cases b
  · exact .inl rfl
  · exact .inr rfl

/-- Drawing from `s` to `t`: the sprite is XORed onto the cells, and VF is 1 exactly if a 1 bit met a cell that was
on, and else 0 (R171, R174). -/
structure DrawsSprite (s : State) (x y : Reg) (n : Nibble) (t : State) : Prop where
  cell_eq : ∀ c r, t.cell c r = (s.cell c r ^^ spriteBit s x y n c r)
  flag_iff : t.reg vf = 1 ↔ ∃ c r, s.cell c r = true ∧ spriteBit s x y n c r = true
  flag_bit : t.reg vf = 0 ∨ t.reg vf = 1
  pc_eq : t.pc = s.pc + 2
  frame : Frame s t (writes (.drw x y n) s)

theorem exec_drw_drawsSprite {s : State} (x y : Reg) {n : Nibble}
    (hin : n.toNat = 0 ∨ s.i.toNat + n.toNat ≤ Config.memSize) :
    ∃ t, exec (.drw x y n) s = .next t ∧ DrawsSprite s x y n t := by
  have hexec := exec_drw_of_inMemory x y hin
  refine ⟨_, hexec, displayCell_drawn x y n s, ?_, ?_, rfl, Frame.draw_advance x y n s⟩
  · rw [State.reg_advance, State.reg_setReg_self, flagByte_eq_one_iff, drawn_flag]
  · rw [State.reg_advance, State.reg_setReg_self]
    exact flagByte_eq_zero_or_one _

/-- Settles O34: where no 1 bit meets a cell that is on VF is not 1, so it is 0. -/
theorem drawXorsTheWrappedSprite : Obligations.DrawXorsTheWrappedSprite := by
  intro s x y n hin
  obtain ⟨t, hexec, hdrawn⟩ := exec_drw_drawsSprite x y hin
  refine ⟨t, hexec, hdrawn.cell_eq, hdrawn.flag_iff.2, fun hmiss => ?_, hdrawn.pc_eq, hdrawn.frame⟩
  refine hdrawn.flag_bit.resolve_right fun hflag => ?_
  obtain ⟨c, r, hon, hbit⟩ := hdrawn.flag_iff.1 hflag
  exact Bool.false_ne_true ((hmiss c r hon).symm.trans hbit)

end Sys2Proof.Machine
end

section
/-! PROOFS of the display family: two equal drawings. The second finds the sprite of the first, so each cell is flipped
twice or not at all (R176); and a sprite has a 1 bit somewhere exactly if one of its bytes is not 0. -/

namespace Sys2Proof.Machine

/-! ### The bits of a sprite -/

/-- A sprite's bit on a cell is that of the row's byte (R172, R173, decision D11). -/
theorem spriteBit_iff (s : State) (x y : Reg) (n : Nibble) (c : Fin 64) (r : Fin 32) :
    spriteBit s x y n c r = true ↔
      columnsFrom (s.reg x).toNat c < 8 ∧ rowsFrom (s.reg y).toNat r < n.toNat ∧
        (Memory.read s.mem (ea s (rowsFrom (s.reg y).toNat r))).getLsbD
          (7 - columnsFrom (s.reg x).toNat c) = true := by
  simp only [spriteBit, columnsFrom, rowsFrom, Bool.and_eq_true, decide_eq_true_iff, and_assoc]

/-- A sprite covers some cell with a 1 bit exactly if one of its bytes is not 0. -/
theorem exists_spriteBit_iff (s : State) (x y : Reg) (n : Nibble) :
    (∃ c r, spriteBit s x y n c r = true) ↔ ∃ k, k < n.toNat ∧ Memory.read s.mem (ea s k) ≠ 0 := by
  constructor
  · rintro ⟨c, r, hbit⟩
    obtain ⟨-, hrow, hbyte⟩ := (spriteBit_iff s x y n c r).1 hbit
    exact ⟨_, hrow, fun hzero => by simp [hzero] at hbyte⟩
  · rintro ⟨k, hk, hbyte⟩
    obtain ⟨j, hbit⟩ : ∃ j, (Memory.read s.mem (ea s k)).getLsbD j = true :=
      ⟨_, BitVec.getLsbD_true_ctz_of_ne_zero hbyte⟩
    have hj : j < 8 := BitVec.lt_of_getLsbD hbit
    have hn := n.isLt
    have hcol := (wrapColumn_eq_iff (s.reg x).toNat (7 - j) _ (by omega)).1 rfl
    have hrow := (wrapRow_eq_iff (s.reg y).toNat k _ (by omega)).1 rfl
    refine ⟨_, _, (spriteBit_iff s x y n _ _).2 ⟨by rw [hcol]; omega, by rw [hrow]; exact hk, ?_⟩⟩
    rw [hcol, hrow, Nat.sub_sub_self (by omega)]
    exact hbit

/-! ### Two drawings -/

namespace DrawsSprite

variable {s t u : State} {x y : Reg} {n : Nibble}

theorem i_eq (h : DrawsSprite s x y n t) : t.i = s.i := h.frame .i (by simp [writes, Part.IsCell])

theorem reg_eq (h : DrawsSprite s x y n t) {r : Reg} (hr : r ≠ vf) : t.reg r = s.reg r :=
  h.frame (.v r) (by simp [writes, Part.IsCell, hr])

theorem read_eq (h : DrawsSprite s x y n t) (a : Nat) : Memory.read t.mem a = Memory.read s.mem a :=
  h.frame (.byte a) (by simp [writes, Part.IsCell])

/-- A drawing keeps its own sprite where its coordinates are not in VF. -/
theorem spriteBit_eq (h : DrawsSprite s x y n t) (hx : x ≠ vf) (hy : y ≠ vf) (c : Fin 64) (r : Fin 32) :
    spriteBit t x y n c r = spriteBit s x y n c r := by
  simp only [spriteBit, ea, h.i_eq, h.reg_eq hx, h.reg_eq hy, h.read_eq]

section
variable (h : DrawsSprite s x y n t) (h' : DrawsSprite t x y n u) (hx : x ≠ vf) (hy : y ≠ vf)
include h h' hx hy

/-- The second of two equal drawings undoes the first. -/
theorem twice_cell_eq (c : Fin 64) (r : Fin 32) : u.cell c r = s.cell c r := by
  rw [h'.cell_eq, h.cell_eq, h.spriteBit_eq hx hy, Bool.xor_assoc, Bool.xor_self, Bool.xor_false]

/-- The second of two equal drawings collides where the first turned a cell on. -/
theorem twice_flag_iff :
    u.reg vf = 1 ↔ ∃ c r, s.cell c r = false ∧ spriteBit s x y n c r = true := by
  have hcollides (c : Fin 64) (r : Fin 32) : t.cell c r = true ∧ spriteBit t x y n c r = true ↔
      s.cell c r = false ∧ spriteBit s x y n c r = true := by
    rw [h.cell_eq, h.spriteBit_eq hx hy]
    refine and_congr_left fun hbit => ?_
    rw [hbit, Bool.xor_true, Bool.not_eq_true']
  simp only [h'.flag_iff, hcollides]

/-- R176's inference, where every cell under a 1 bit was off before the first drawing (log entry 12). -/
theorem twice_flag_iff_of_off (hoff : ∀ c r, spriteBit s x y n c r = true → s.cell c r = false) :
    u.reg vf = 1 ↔ ∃ k, k < n.toNat ∧ Memory.read s.mem (ea s k) ≠ 0 := by
  have hunder (c : Fin 64) (r : Fin 32) : s.cell c r = false ∧ spriteBit s x y n c r = true ↔
      spriteBit s x y n c r = true := and_iff_right_of_imp (hoff c r)
  simp only [h.twice_flag_iff h' hx hy, hunder]
  exact exists_spriteBit_iff s x y n

end

end DrawsSprite

/-- Settles O36: the first drawing leaves `I` and the sprite, so the second is in memory too and draws the same bits. -/
theorem drawingTwiceRestoresTheDisplay : Obligations.DrawingTwiceRestoresTheDisplay := by
  intro s x y n hx hy hin
  obtain ⟨t, hst, h⟩ := exec_drw_drawsSprite x y hin
  obtain ⟨u, htu, h'⟩ := exec_drw_drawsSprite x y (s := t) (h.i_eq ▸ hin)
  exact ⟨t, u, hst, htu, h.twice_cell_eq h' hx hy, h.flag_iff, h.twice_flag_iff h' hx hy,
    h.twice_flag_iff_of_off h' hx hy, h.flag_bit, h'.flag_bit⟩

end Sys2Proof.Machine
end

section
/-! PROOFS of the keys and timers family. A skip on a key is decided by the number in its register: up to 15 it tests
that key's flag, above it raises (R190, R191, decision D19). The timer transfers write one part and advance (R192, R194,
R195); the wait-for-key writes the wait marker alone (R193, decision D22). -/

namespace Sys2Proof.Machine

/-! ### Skips on keys -/

/-- A register that holds a key's number selects that key (R190, R191). -/
theorem skipOnKey_of_toNat_eq {s : State} {x : Reg} {k : Nibble} (hk : (s.reg x).toNat = k.toNat) (down : Bool) :
    skipOnKey x down s = .next (s.skipIf (s.key k == down)) := by
  have hkey : (s.reg x).setWidth 4 = k := by
    rw [← BitVec.ofNat_toNat, hk, BitVec.ofNat_toNat, BitVec.setWidth_eq]
  rcases skipOnKey_cases x down s with ⟨-, hbig⟩ | ⟨hskip, -⟩
  · have hlt := k.isLt
    omega
  · rw [hskip, hkey]

theorem skipOnKey_of_gt {s : State} {x : Reg} (hbig : 0xF < (s.reg x).toNat) (down : Bool) :
    skipOnKey x down s = s.raise (.keyIndexOutOfRange s.pc (s.reg x)) := by
  rcases skipOnKey_cases x down s with ⟨hraise, -⟩ | ⟨-, hsmall⟩
  · exact hraise
  · omega

/-- Settles O37: SKP tests the selected flag for down, SKNP for up. -/
theorem skipsOnKey : Obligations.SkipsOnKey :=
  fun _ _ _ hk => ⟨exec_skip (skipOnKey_of_toNat_eq hk true) beq_iff_eq,
    exec_skip (skipOnKey_of_toNat_eq hk false) beq_iff_eq⟩

/-- Settles O38: the number is checked before a flag is read, so SKP and SKNP raise alike. -/
theorem keyNumberAboveFifteenHalts : Obligations.KeyNumberAboveFifteenHalts :=
  fun _ _ hbig => ⟨skipOnKey_of_gt hbig true, skipOnKey_of_gt hbig false⟩

/-! ### Timers and the wait -/

/-- Settles O39: LD Vx, DT is a register write; the other two write the timer they name. -/
theorem timerTransfersCopy : Obligations.TimerTransfersCopy :=
  fun _ x => ⟨exec_setReg rfl,
    ⟨_, rfl, rfl, rfl, exec_frame_of_halt_eq (i := .ldDTVx x) rfl rfl⟩,
    ⟨_, rfl, rfl, rfl, exec_frame_of_halt_eq (i := .ldSTVx x) rfl rfl⟩⟩

/-- Settles O40: the state answered differs in the wait marker alone, so neither `PC` nor a key held matters. -/
theorem waitForKeySetsTheMarker : Obligations.WaitForKeySetsTheMarker :=
  fun _ x => ⟨_, rfl, rfl, rfl, exec_frame_of_halt_eq (i := .ldVxK x) rfl rfl⟩

end Sys2Proof.Machine
end

section
/-! PROOFS of the index and memory family. The index instructions write `I` and advance (R211 to R213). The two stores
are the shared store at `I` of their bytes, so what each stores and each error is one rule of that store (R210, R214,
R215); the load is decided by the range of its addresses alone (R216). -/

namespace Sys2Proof.Machine

/-! ### The index register -/

/-- An instruction that answers a write of `I` and the advance, with its frame. -/
theorem exec_setI {i : Instr} {s : State} {a : Word} {n : Nat} (h : exec i s = .next { s with i := a }.advance)
    (ha : a.toNat = n) :
    ∃ t, exec i s = .next t ∧ t.i.toNat = n ∧ t.pc = s.pc + 2 ∧ Frame s t (writes i s) :=
  ⟨_, h, ha, rfl, exec_frame_of_halt_eq h rfl⟩

/-- Settles O41: both values fit in 16 bits, so `I` is the address itself and five times the whole register. -/
theorem indexLoads : Obligations.IndexLoads :=
  fun s => ⟨fun nnn => exec_setI rfl (addrOperand_toNat nnn), fun x => exec_setI rfl (fontAddress_toNat (s.reg x))⟩

theorem addToIndex_toNat (a : Word) (b : Byte) : (a + b.setWidth 16).toNat = (a.toNat + b.toNat) % 65536 := by
  have hb : (b.setWidth 16).toNat = b.toNat := BitVec.toNat_setWidth_of_le (by decide)
  rw [BitVec.toNat_add, hb]

/-- Settles O42: the sum is that of 16-bit words, and VF is in the frame. -/
theorem addToIndexWrapsWithoutFlag : Obligations.AddToIndexWrapsWithoutFlag := by
  intro s x
  obtain ⟨t, hexec, hi, hpc, hframe⟩ := exec_setI (i := .addIVx x) (s := s) rfl (addToIndex_toNat s.i (s.reg x))
  have hvf : t.reg vf = s.reg vf := hframe (.v vf) (by simp [writes])
  exact ⟨t, hexec, hi, hvf, hpc, hframe⟩

/-! ### The store at `I` -/

section
variable {s : State} {bs : List Byte} (hn : bs.length ≠ 0)
include hn

theorem storeAtI_of_writable (hlow : Config.reservedEnd ≤ s.i.toNat)
    (hin : s.i.toNat + bs.length ≤ Config.memSize) :
    storeAtI s bs = .next { s with mem := Memory.writeAll s.mem s.i.toNat bs }.advance := by
  rcases storeAtI_cases s bs hn with ⟨h, -⟩ | ⟨-, hout⟩ | ⟨-, hres, -⟩
  · exact h
  · omega
  · omega

/-- A store that reaches beyond memory raises at the smallest address out of it (R210, decision D17). -/
theorem storeAtI_of_outOfMemory (hout : Config.memSize < s.i.toNat + bs.length) :
    storeAtI s bs = .next { s with halt := some (.memOutOfRange s.pc (max s.i.toNat Config.memSize)) } := by
  rcases storeAtI_cases s bs hn with ⟨-, -, hin⟩ | ⟨h, -⟩ | ⟨-, -, hin⟩
  · omega
  · exact h
  · omega

/-- A store inside memory that starts at a reserved byte raises there (R210, decision D18). -/
theorem storeAtI_of_reserved (hres : s.i.toNat < Config.reservedEnd)
    (hin : s.i.toNat + bs.length ≤ Config.memSize) :
    storeAtI s bs = .next { s with halt := some (.reservedWrite s.pc s.i.toNat) } := by
  rcases storeAtI_cases s bs hn with ⟨-, hlow, -⟩ | ⟨-, hout⟩ | ⟨h, -⟩
  · omega
  · omega
  · exact h

/-- An instruction that stores its bytes where they are writable leaves them at `I` and on, in order. -/
theorem exec_store {i : Instr} (h : exec i s = storeAtI s bs) (hm : Memory.wf s.mem)
    (hlow : Config.reservedEnd ≤ s.i.toNat) (hin : s.i.toNat + bs.length ≤ Config.memSize) :
    ∃ t, exec i s = .next t ∧ (∀ k (hk : k < bs.length), Memory.read t.mem (s.i.toNat + k) = bs[k]) ∧
      t.pc = s.pc + 2 ∧ Frame s t (writes i s) := by
  have hexec := h.trans (storeAtI_of_writable hn hlow hin)
  exact ⟨_, hexec, fun k hk => Memory.read_writeAll bs s.mem s.i.toNat k hin hm hk, rfl,
    exec_frame_of_halt_eq hexec rfl⟩

end

/-- The digits as numbers, hundreds first (R214). -/
theorem bcdDigits_toNat (b : Byte) :
    (bcdDigits b)[0].toNat = b.toNat / 100 ∧ (bcdDigits b)[1].toNat = b.toNat / 10 % 10 ∧
      (bcdDigits b)[2].toNat = b.toNat % 10 := by
  have hb := b.isLt
  simp only [bcdDigits, List.getElem_cons_zero, List.getElem_cons_succ, BitVec.toNat_ofNat]
  omega

/-- Settles O43: the three bytes stored are the digits. -/
theorem storeBcdWritesTheDigits : Obligations.StoreBcdWritesTheDigits := by
  intro s x hm hlow hin
  obtain ⟨t, hexec, hread, hrest⟩ := exec_store (i := .ldBVx x) (bs := bcdDigits (s.reg x)) (by simp) rfl hm hlow hin
  obtain ⟨hundreds, tens, ones⟩ := bcdDigits_toNat (s.reg x)
  exact ⟨t, hexec, (congrArg BitVec.toNat (hread 0 (by simp))).trans hundreds,
    (congrArg BitVec.toNat (hread 1 (by simp))).trans tens, (congrArg BitVec.toNat (hread 2 (by simp))).trans ones,
    hrest⟩

/-- Settles O44: byte `r` of the run stored is register `r`. -/
theorem storeRegistersWritesV0ToVx : Obligations.StoreRegistersWritesV0ToVx := by
  intro s x hm hlow hin
  obtain ⟨t, hexec, hread, hrest⟩ := exec_store (i := .ldMemVx x) (bs := regsUpTo s x) (by simp) rfl hm hlow
    (by rwa [length_regsUpTo])
  refine ⟨t, hexec, fun r hr => ?_, hrest⟩
  have hlen : r.toNat < (regsUpTo s x).length := by
    rw [length_regsUpTo]
    omega
  rw [hread r.toNat hlen, getElem_regsUpTo, BitVec.ofNat_toNat, BitVec.setWidth_eq]

/-! ### The load from `I` -/

theorem exec_ldVxMem_of_inMemory {s : State} {x : Reg} (hin : s.i.toNat + x.toNat < Config.memSize) :
    exec (.ldVxMem x) s =
      .next (s.setRegsFrom 0 (Memory.readAll s.mem s.i.toNat (x.toNat + 1))).advance := by
  rcases execLdVxMem_cases x s with ⟨-, h⟩ | ⟨hout, -⟩
  · exact h
  · omega

theorem exec_ldVxMem_of_outOfMemory {s : State} {x : Reg} (hout : Config.memSize ≤ s.i.toNat + x.toNat) :
    exec (.ldVxMem x) s =
      .next { s with halt := some (.memOutOfRange s.pc (max s.i.toNat Config.memSize)) } := by
  rcases execLdVxMem_cases x s with ⟨hin, -⟩ | ⟨-, h⟩
  · omega
  · exact h

/-- Settles O45: register `r` takes byte `r` of the run read. -/
theorem loadRegistersReadsV0ToVx : Obligations.LoadRegistersReadsV0ToVx := by
  intro s x hin
  refine ⟨_, exec_ldVxMem_of_inMemory hin, fun r hr => ?_, ?_, Frame.load_advance s x⟩
  · rw [State.reg_advance, reg_loaded, if_pos hr]
  · rw [State.advance_pc, State.setRegsFrom_pc]

/-! ### The errors -/

/-- Settles O46: a run stored is no longer than 16 bytes, so one that starts at a reserved byte ends in memory, and its
range error cannot come first. -/
theorem memoryAccessErrors : Obligations.MemoryAccessErrors := by
  intro s x
  have hx := x.isLt
  have hmem : Config.memSize = 4096 := rfl
  have hdigits : (bcdDigits (s.reg x)).length = 3 := length_bcdDigits _
  have hregs : (regsUpTo s x).length = x.toNat + 1 := length_regsUpTo s x
  refine ⟨fun hout => ?_, fun hres => ?_, fun hout => ?_, fun hres => ?_, exec_ldVxMem_of_outOfMemory⟩
  · exact storeAtI_of_outOfMemory (by simp) hout
  · exact storeAtI_of_reserved (by simp) hres (by omega)
  · exact storeAtI_of_outOfMemory (by simp) (by omega)
  · exact storeAtI_of_reserved (by simp) hres (by omega)

end Sys2Proof.Machine
end

section
/-! PROOFS of the exceptions family: halting. A halted machine takes no event (R247). What a step delivers, and the
errors of the fetch, of the decoder and of the stack, each from the inversion lemma of the operation that raises it
(R232 to R234). -/

namespace Sys2Proof.Machine

theorem deliver_of_halt_ne_none {s : State} (hh : s.halt ≠ none) (e : Event) : deliver e s = .next s :=
  deliver_of_halted e (Option.isSome_iff_ne_none.2 hh)

theorem deliverAll_of_halted {s : State} (hh : s.halt ≠ none) (es : List Event) : deliverAll es s = .next s := by
  induction es with
  | nil => rfl
  | cons e es ih => exact (deliverAll_cons_of_next (deliver_of_halt_ne_none hh e)).trans ih

/-- Settles O12, by induction on the events, none of which a halted machine takes. -/
theorem haltedStateIsFrozen : Obligations.HaltedStateIsFrozen :=
  fun _ es hh => deliverAll_of_halted hh es

theorem step_of_inbox_cons {s : State} {e : Event} {es : List Event} (h : s.inbox = e :: es) :
    step s = deliver e { s with inbox := es } := by
  rw [step, nextTransition, h]

/-- Settles O7: the two cases of the inbox. -/
theorem stepDeliversTheOldestEvent : Obligations.StepDeliversTheOldestEvent :=
  ⟨fun _ => step_of_inbox_nil, fun _ _ _ => step_of_inbox_cons⟩

/-- Settles O8: the range of `PC` is the first check of the fetch. -/
theorem pcOutOfRangeHalts : Obligations.PcOutOfRangeHalts :=
  fun _ => deliver_step_of_farPc

theorem deliver_step_of_unknown {s : State} {w : Word} (hr : Ready s) (hd : decode (fetchWord s) = .unknown w) :
    deliver .step s = .next { s with halt := some (.unknownOpcode s.pc w) } := by
  change stepEvent s = s.raise (.unknownOpcode s.pc w)
  rw [stepEvent_of_ready hr, hd]

/-- A word that decodes to no instruction decodes to itself as unknown (R82). -/
theorem decode_eq_unknown_of_ne_instr {w : Word} (h : ∀ i, decode w ≠ .instr i) : decode w = .unknown w := by
  cases hd : decode w with
  | instr i => exact absurd hd (h i)
  | unknown v => rw [eq_of_decode_eq_unknown hd]

/-- Settles O10: the decoder answers such a word itself, and 0xF000 is one of the spec's own words. -/
theorem unknownOpcodeHalts : Obligations.UnknownOpcodeHalts := by
  refine ⟨fun s w hr hw hnone => deliver_step_of_unknown hr ?_, fun s hr hw => deliver_step_of_unknown hr ?_⟩
  · rw [hw, decode_eq_unknown_of_ne_instr hnone]
  · obtain ⟨-, -, hF000, -⟩ := specWordsDecode
    rw [hw, hF000]

/-- CALL with a full stack raises (R122). -/
theorem exec_call_of_full {s : State} (nnn : Addr12) (hfull : s.sp = s.stackCap) :
    exec (.call nnn) s = .next { s with halt := some (.stackFault s.stackCap .call) } := by
  change execCall nnn s = s.raise (.stackFault s.stackCap .call)
  rcases execCall_cases nnn s with ⟨-, h⟩ | ⟨hroom, -⟩ | ⟨hroom, -⟩
  · rw [h, hfull]
  · exact absurd hfull hroom
  · exact absurd hfull hroom

/-- Settles O30: each of the two raises before it touches the stack. -/
theorem stackFaultOnOverflowAndUnderflow : Obligations.StackFaultOnOverflowAndUnderflow :=
  ⟨fun _ nnn hfull => exec_call_of_full nnn hfull, fun _ => exec_ret_of_empty⟩

end Sys2Proof.Machine
end

section
/-! PROOFS of the exceptions family: the events of a running machine. A KeyUp and, with no wait pending, a KeyDown set
one flag; a KeyDown during a wait resolves it too (R242 to R245). -/

namespace Sys2Proof.Machine

section
variable {s : State} (hh : s.halt = none)
include hh

theorem tickEvent_of_running : tickEvent s = { s with dt := timerDown s.dt, st := timerDown s.st } := by
  simp [tickEvent, hh]

theorem deliver_keyUp_of_running (k : Nibble) : deliver (.keyUp k) s = .next (s.setKey k false) := by
  simp [deliver, keyUpEvent, hh]

theorem deliver_keyDown_of_not_waiting (hw : s.wait = none) (k : Nibble) :
    deliver (.keyDown k) s = .next (s.setKey k true) := by
  simp [deliver, keyDownEvent, hh, hw]

end

theorem State.key_setKey_self (s : State) (k : Nibble) (b : Bool) : (s.setKey k b).key k = b := by
  rw [State.key_setKey, if_pos rfl]

/-- Settles O54: a running machine's KeyUp is a write of the flag. -/
theorem keyUpClearsOnlyItsFlag : Obligations.KeyUpClearsOnlyItsFlag :=
  ⟨fun _ _ hh => deliver_of_halt_ne_none hh _,
    fun s k hh => ⟨_, deliver_keyUp_of_running hh k, s.key_setKey_self k false, s.setKey_wait k false,
      Frame.setKey s k false rfl⟩⟩

/-- Settles O55: with no wait pending a running machine's KeyDown is a write of the flag. -/
theorem keyDownSetsOnlyItsFlag : Obligations.KeyDownSetsOnlyItsFlag :=
  fun s k hh hw => ⟨_, deliver_keyDown_of_not_waiting hh hw k, s.key_setKey_self k true, Frame.setKey s k true rfl⟩

/-! ### The key-wait -/

theorem reg_resolveWait_toNat (x : Reg) (k : Nibble) (s : State) :
    ((resolveWait x k s).reg x).toNat = k.toNat := by
  change ((s.setReg x (k.setWidth 8)).reg x).toNat = k.toNat
  rw [State.reg_setReg_self, BitVec.toNat_setWidth_of_le (by omega)]

/-- The resolution writes the register, `PC` and the wait marker (R244). -/
theorem resolveWait_frame (x : Reg) (k : Nibble) (s : State) {P : Part → Prop}
    (hx : P (.v x)) (hpc : P .pc) (hw : P .wait) : Frame s (resolveWait x k s) P :=
  (Frame.setReg_advance s x _ hpc hx).trans (Frame.setWait _ none hw)

/-- Settles O56: the first KeyDown sets its flag and resolves the wait, so the second finds none pending. -/
theorem keyDownResolvesTheWaitOnce : Obligations.KeyDownResolvesTheWaitOnce := by
  intro s x k j hh hw
  have hfirst : deliver (.keyDown k) s = .next (resolveWait x k (s.setKey k true)) :=
    congrArg _ (keyDownEvent_of_waiting hh hw k)
  obtain ⟨u, hsecond, hkey, hframe⟩ :=
    keyDownSetsOnlyItsFlag (resolveWait x k (s.setKey k true)) j hh (resolveWait_wait x k _)
  refine ⟨_, u, hfirst, reg_resolveWait_toNat x k _, resolveWait_wait x k _, rfl, s.key_setKey_self k true, ?_, ?_,
    hkey, hframe⟩
  · exact (Frame.setKey s k true (.inr (.inr (.inr rfl)))).trans
      (resolveWait_frame x k _ (.inl rfl) (.inr (.inr (.inl rfl))) (.inr (.inl rfl)))
  · rw [deliverAll_cons_of_next hfirst, deliverAll_cons_of_next hsecond, deliverAll]

end Sys2Proof.Machine
end

section
/-! PROOFS of the exceptions family: the timers, and idle machines. A change that counts both timers down and keeps a
frame composes, the counts adding up. Ticks make such changes of a running machine, and every event makes one of an idle
machine, which it leaves idle; so does every series of events, and every run (R240, R249). -/

namespace Sys2Proof.Machine

/-- From `s` to `t` both timers count down by `n`, to zero at the least, and every part outside `P` is unchanged. -/
structure CountsDown (n : Nat) (P : Part → Prop) (s t : State) : Prop where
  dt : t.dt.toNat = s.dt.toNat - n
  st : t.st.toNat = s.st.toNat - n
  frame : Frame s t P

/-- The part is a timer. -/
def Part.IsTimer (p : Part) : Prop := p = .dt ∨ p = .st

theorem CountsDown.refl (s : State) (P : Part → Prop) : CountsDown 0 P s s :=
  ⟨rfl, rfl, .refl s P⟩

theorem CountsDown.trans {m n : Nat} {P : Part → Prop} {s t u : State} (h : CountsDown m P s t)
    (h' : CountsDown n P t u) : CountsDown (m + n) P s u where
  dt := by rw [h'.dt, h.dt, Nat.sub_sub]
  st := by rw [h'.st, h.st, Nat.sub_sub]
  frame := h.frame.trans h'.frame

theorem CountsDown.setKey (s : State) (k : Nibble) (b : Bool) {P : Part → Prop} (hk : P (.key k)) :
    CountsDown 0 P s (s.setKey k b) :=
  ⟨rfl, rfl, Frame.setKey s k b hk⟩

/-- A timer holds at most 255, so a count of 255 ends at zero. -/
theorem CountsDown.timers_eq_zero {n : Nat} {P : Part → Prop} {s t : State} (h : CountsDown n P s t)
    (hn : 255 ≤ n) : t.dt = 0 ∧ t.st = 0 := by
  have hdt := s.dt.isLt
  have hst := s.st.isLt
  exact ⟨BitVec.eq_of_toNat_eq (h.dt.trans (Nat.sub_eq_zero_of_le (by omega))),
    BitVec.eq_of_toNat_eq (h.st.trans (Nat.sub_eq_zero_of_le (by omega)))⟩

/-! ### Ticks -/

theorem tickEvent_countsDown {s : State} (hh : s.halt = none) {P : Part → Prop} (hdt : P .dt) (hst : P .st) :
    CountsDown 1 P s (tickEvent s) := by
  rw [tickEvent_of_running hh]
  exact ⟨timerDown_toNat s.dt, timerDown_toNat s.st, Frame.ofChanged (dt := absurd hdt) (st := absurd hst)⟩

theorem deliverAll_ticks {s : State} (hh : s.halt = none) (n : Nat) :
    ∃ t, deliverAll (List.replicate n .tick) s = .next t ∧ CountsDown n Part.IsTimer s t := by
  induction n generalizing s with
  | zero => exact ⟨s, rfl, .refl s _⟩
  | succ n ih =>
    have hst : CountsDown 1 Part.IsTimer s (tickEvent s) := tickEvent_countsDown hh (.inl rfl) (.inr rfl)
    have hhalt : (tickEvent s).halt = s.halt := hst.frame .halt (by simp [Part.IsTimer])
    obtain ⟨u, hu, htu⟩ := ih (hhalt.trans hh)
    exact ⟨u, hu, Nat.add_comm 1 n ▸ hst.trans htu⟩

/-- Settles O53, by induction on the number of Ticks. -/
theorem ticksDecrementTimersToZero : Obligations.TicksDecrementTimersToZero := by
  refine ⟨fun s hh => deliver_of_halt_ne_none hh _, fun s hh => ⟨?_, fun n => ?_⟩⟩
  · obtain ⟨hdt, hst, hframe⟩ := tickEvent_countsDown hh (P := Part.IsTimer) (.inl rfl) (.inr rfl)
    exact ⟨_, rfl, hdt, hst, hframe⟩
  · obtain ⟨t, ht, hdt, hst, hframe⟩ := deliverAll_ticks hh n
    exact ⟨t, ht, hdt, hst, hframe⟩

/-! ### Idle machines -/

theorem addrOperand_setWidth {a : Word} (ha : a.toNat < 4096) : addrOperand (a.setWidth 12) = a := by
  apply BitVec.eq_of_toNat_eq
  rw [addrOperand_toNat, BitVec.toNat_setWidth, Nat.mod_eq_of_lt ha]

/-- An idle machine's Step jumps to where it is (R121). -/
theorem Idle.deliver_step {s : State} (h : Idle s) : deliver .step s = .next s := by
  obtain ⟨hready, hjump⟩ := h
  obtain ⟨hlt, -⟩ := (fetchFault_eq_none s).1 hready.2.2
  have hpc : addrOperand (s.pc.setWidth 12) = s.pc := addrOperand_setWidth (by omega)
  calc deliver .step s
    _ = exec (.jp (s.pc.setWidth 12)) s := by
      change stepEvent s = _
      rw [stepEvent_of_ready hready, hjump]
    _ = .next { s with pc := addrOperand (s.pc.setWidth 12) } := rfl
    _ = .next s := by rw [hpc]

/-- Whether a machine is idle does not rest on its timers and key flags. -/
theorem Idle.of_frame {s t : State} (h : Idle s) (hframe : Frame s t Part.IsTimerOrKey) : Idle t := by
  obtain ⟨⟨hhalt, hwait, hfetch⟩, hjump⟩ := h
  have hhalt' : t.halt = s.halt := hframe .halt (by simp [Part.IsTimerOrKey])
  have hpc' : t.pc = s.pc := hframe .pc (by simp [Part.IsTimerOrKey])
  have hbyte (a : Nat) : Memory.read t.mem a = Memory.read s.mem a := hframe (.byte a) (by simp [Part.IsTimerOrKey])
  have hword : fetchWord t = fetchWord s := by rw [fetchWord, fetchWord, hpc', hbyte, hbyte]
  refine ⟨⟨hhalt'.trans hhalt, hframe.wait_eq.trans hwait, ?_⟩, ?_⟩
  · rw [fetchFault_eq_none, hpc']
    exact (fetchFault_eq_none s).1 hfetch
  · rw [hword, hpc']
    exact hjump

/-- One event counts an idle machine's timers down if it is a Tick, and else changes a key flag at the most. -/
theorem Idle.deliver_countsDown {s : State} (h : Idle s) (e : Event) :
    ∃ t, deliver e s = .next t ∧ CountsDown (if e = .tick then 1 else 0) Part.IsTimerOrKey s t := by
  obtain ⟨hhalt, hwait, -⟩ := h.1
  cases e with
  | step => exact ⟨s, h.deliver_step, .refl s _⟩
  | tick => exact ⟨_, rfl, tickEvent_countsDown hhalt (.inl rfl) (.inr (.inl rfl))⟩
  | keyDown k =>
    exact ⟨_, deliver_keyDown_of_not_waiting hhalt hwait k, .setKey s k true (.inr (.inr ⟨k, rfl⟩))⟩
  | keyUp k => exact ⟨_, deliver_keyUp_of_running hhalt k, .setKey s k false (.inr (.inr ⟨k, rfl⟩))⟩

theorem Idle.deliverAll_countsDown {s : State} (h : Idle s) (es : List Event) :
    ∃ t, deliverAll es s = .next t ∧ CountsDown (es.count .tick) Part.IsTimerOrKey s t := by
  induction es generalizing s with
  | nil => exact ⟨s, rfl, .refl s _⟩
  | cons e es ih =>
    obtain ⟨t, ht, hst⟩ := h.deliver_countsDown e
    obtain ⟨u, hu, htu⟩ := ih (h.of_frame hst.frame)
    refine ⟨u, (deliverAll_cons_of_next ht).trans hu, ?_⟩
    simpa [List.count_cons, Nat.add_comm] using hst.trans htu

/-- Settles O57, by induction on the events, each of which leaves the machine idle. -/
theorem idleMachineOnlyCountsDown : Obligations.IdleMachineOnlyCountsDown := by
  intro s es h
  obtain ⟨t, ht, hcount⟩ := h.deliverAll_countsDown es
  exact ⟨t, ht, h.of_frame hcount.frame, hcount.dt, hcount.st, hcount.frame⟩

/-! ### Fair runs -/

/-- The number of Ticks among the first `n` events. -/
def ticksBefore (e : Nat → Event) (n : Nat) : Nat := Nat.count (fun k => e k = .tick) n

theorem Idle.run_countsDown {e : Nat → Event} {σ : Nat → State} (h : Idle (σ 0)) (hrun : EventRun e σ) (n : Nat) :
    CountsDown (ticksBefore e n) Part.IsTimerOrKey (σ 0) (σ n) := by
  induction n with
  | zero => exact .refl (σ 0) _
  | succ n ih =>
    obtain ⟨t, ht, hcount⟩ := (h.of_frame ih.frame).deliver_countsDown (e n)
    cases (hrun n).symm.trans ht
    rw [ticksBefore, Nat.count_succ]
    exact ih.trans hcount

/-- In a fair run the number of Ticks passes every bound, and stays past it. -/
theorem Fair.exists_le_ticksBefore {e : Nat → Event} {σ : Nat → State} (h : Fair e σ) (bound : Nat) :
    ∃ n, ∀ m, n ≤ m → bound ≤ ticksBefore e m := by
  obtain ⟨hticks, -⟩ := h
  have hinf : {k | e k = .tick}.Infinite := Nat.frequently_atTop_iff_infinite.1 (Filter.frequently_atTop.2 hticks)
  obtain ⟨n, hn⟩ := Nat.surjective_count_of_infinite_setOfPred hinf bound
  exact ⟨n, fun m hm => hn ▸ Nat.count_monotone _ hm⟩

/-- Settles O58: once 255 Ticks have come, a timer has nothing left to count down. -/
theorem fairIdleRunReachesZeroTimers : Obligations.FairIdleRunReachesZeroTimers := by
  intro e σ h hrun hfair
  obtain ⟨n, hn⟩ := hfair.exists_le_ticksBefore 255
  refine ⟨n, fun m hm => ?_⟩
  have hcount := h.run_countsDown hrun m
  obtain ⟨hdt, hst⟩ := hcount.timers_eq_zero (hn m hm)
  exact ⟨hdt, hst, h.of_frame hcount.frame, hcount.frame⟩

end Sys2Proof.Machine
end

section
/-! PROOFS of the reset family: creation. The memory of a creation is the font at 0x000 and the image at 0x200 over a
memory that lists nothing (R270); the default font lists nothing either, for it is what an unlisted address reads. -/

namespace Sys2Proof.Machine

theorem Params.wellFormed_iff {p : Params} :
    p.wellFormed = true ↔ 16 ≤ p.stackCap ∧ p.font.length = 80 := by
  simp [Params.wellFormed]

theorem imageFits_iff {image : List Byte} : imageFits image = true ↔ image.length ≤ 3584 :=
  decide_eq_true_iff

/-! ### The memory of a creation -/

/-- The memory that `create` makes of a font and an image (R270). -/
def creationMemory (font image : List Byte) : Memory :=
  Memory.writeAll (Memory.writeAll [] 0 font) Config.loadAddr image

/-- An image that fits ends inside the address space (R271). -/
theorem imageEnd_le {image : List Byte} (h : image.length ≤ 3584) :
    Config.loadAddr + image.length ≤ Config.memSize :=
  Nat.add_le_add_left h Config.loadAddr

theorem Memory.wf_nil : Memory.wf [] := Memory.wf_reset

/-- Past the default font an unlisted address reads 0 (R56). -/
theorem Memory.unlisted_of_le {a : Nat} (h : 80 ≤ a) : Memory.unlisted a = 0 :=
  List.getD_eq_default _ _ h

/-- Writing what the addresses read anyway lists none of them. -/
theorem Memory.writeAll_unlisted (bs : List Byte) (a : Nat)
    (h : ∀ k (hk : k < bs.length), bs[k] = Memory.unlisted (a + k)) : Memory.writeAll [] a bs = [] := by
  induction bs generalizing a with
  | nil => rfl
  | cons b bs ih =>
    have hb : b = Memory.unlisted a := h 0 (Nat.zero_lt_succ _)
    rw [Memory.writeAll, Memory.write, if_pos hb]
    refine ih (a + 1) fun k hk => ?_
    rw [Nat.add_right_comm]
    exact h (k + 1) (Nat.succ_lt_succ hk)

theorem creationMemory_default : creationMemory defaultFont [] = [] :=
  Memory.writeAll_unlisted defaultFont 0 fun k hk => by
    rw [Nat.zero_add, Memory.unlisted, List.getD_eq_getElem _ _ hk]

section
variable {font image : List Byte} (hfont : font.length = 80) (himage : image.length ≤ 3584)
include hfont

theorem fontEnd_le : 0 + font.length ≤ Config.memSize := by simp [hfont, Config.memSize]

theorem wf_fontMemory : Memory.wf (Memory.writeAll [] 0 font) :=
  Memory.writeAll_wf font [] 0 (fontEnd_le hfont) Memory.wf_nil

theorem read_creationMemory_font {a : Nat} (ha : a < 80) :
    Memory.read (creationMemory font image) a = font.getD a 0 := by
  have hread := Memory.read_writeAll font [] 0 a (fontEnd_le hfont) Memory.wf_nil (hfont ▸ ha)
  rw [Nat.zero_add] at hread
  rw [creationMemory, Memory.read_writeAll_of_not_mem _ _ (.inl (Nat.lt_trans ha (by decide))), hread,
    List.getD_eq_getElem]

theorem read_creationMemory_elsewhere {a : Nat}
    (ha : (80 ≤ a ∧ a < 0x200) ∨ (0x200 + image.length ≤ a ∧ a < 4096)) :
    Memory.read (creationMemory font image) a = 0 := by
  rw [creationMemory, Memory.read_writeAll_of_not_mem _ _ (ha.imp And.right And.left),
    Memory.read_writeAll_of_not_mem _ _ (by omega)]
  exact Memory.unlisted_of_le (by omega)

include himage

theorem wf_creationMemory : Memory.wf (creationMemory font image) :=
  Memory.writeAll_wf image _ _ (imageEnd_le himage) (wf_fontMemory hfont)

theorem read_creationMemory_image {k : Nat} (hk : k < image.length) :
    Memory.read (creationMemory font image) (0x200 + k) = image.getD k 0 := by
  rw [List.getD_eq_getElem _ _ hk]
  exact Memory.read_writeAll image _ _ k (imageEnd_le himage) (wf_fontMemory hfont) hk

end

/-! ### The state of a creation -/

/-- The state that `create` answers for legal parameters and an image that fits (R270). -/
def creationState (p : Params) (image : List Byte) : State :=
  { State.reset with
    stack := List.replicate p.stackCap 0
    stackCap := p.stackCap
    mem := creationMemory p.font image }

theorem create_of_fits {p : Params} {image : List Byte} (hp : p.wellFormed = true) (h : image.length ≤ 3584) :
    create p image = .created (creationState p image) := by
  simp [create, hp, imageFits_iff.2 h, creationState, creationMemory]

theorem create_of_tooLong {p : Params} {image : List Byte} (hp : p.wellFormed = true) (h : 3584 < image.length) :
    create p image = .notCreated .imageTooLong := by
  have hfits : ¬ imageFits image = true := fun hle => Nat.not_le.2 h (imageFits_iff.1 hle)
  simp [create, hp, hfits]

theorem creationState_default : creationState defaultParams [] = State.reset := by
  rw [creationState, show creationMemory defaultParams.font [] = [] from creationMemory_default]
  rfl

section
variable (p : Params) (image : List Byte)

theorem creationState_reg (x : Reg) : (creationState p image).reg x = 0 := Vector.getElem_replicate _

theorem creationState_key (k : Nibble) : (creationState p image).key k = false := Vector.getElem_replicate _

theorem creationState_cell (x : Fin 64) (y : Fin 32) : (creationState p image).cell x y = false := by
  simp [State.cell, displayCell, creationState, State.reset]

theorem creationState_stackEntry {k : Nat} (hk : k < p.stackCap) :
    (creationState p image).stackEntry k = some 0 :=
  List.getElem?_replicate_of_lt hk

variable {p image}

/-- A creation changes of the reset state its memory and its stack, whose entries are all 0. -/
theorem creationState_inv (hp : p.wellFormed = true) (h : image.length ≤ 3584) : Inv (creationState p image) := by
  obtain ⟨hcap, hfont⟩ := Params.wellFormed_iff.1 hp
  exact { invHoldsAtReset with
    mem_wf := wf_creationMemory hfont h
    cap_ge := hcap
    stack_length := List.length_replicate
    sp_le := Nat.zero_le _
    stack_even := fun a ha => by rw [List.eq_of_mem_replicate ha]; decide }

end

/-- Settles O59: the memory of a creation is read part by part, and every other component is as at reset. -/
theorem creationLoadsFontAndImage : Obligations.CreationLoadsFontAndImage := by
  refine ⟨fun p image hp himage => ?_, fun _ _ => create_of_tooLong, ?_⟩
  · obtain ⟨-, hfont⟩ := Params.wellFormed_iff.1 hp
    exact ⟨creationState p image, create_of_fits hp himage,
      fun _ => read_creationMemory_font hfont,
      fun _ => read_creationMemory_image hfont himage,
      fun _ => read_creationMemory_elsewhere hfont,
      creationState_reg p image, rfl, rfl, rfl, rfl,
      fun _ => creationState_stackEntry p image, rfl, rfl,
      creationState_cell p image, creationState_key p image, rfl, rfl,
      creationState_inv hp himage⟩
  · rw [create_of_fits (by decide) (Nat.zero_le _), creationState_default]

end Sys2Proof.Machine
end
